-- ==== Sys2Proof/Word.lean ====
section
/-! DEFINITION. The word types of the Digest Engine: a byte is 8 bits, a word 32, a doubleword 64 (00_scope.md R6, R9). -/

namespace Sys2Proof

/-- A byte (R6, R9). -/
abbrev Byte := BitVec 8

/-- A 32-bit word; `+` on it is the `+32` of R10. -/
abbrev Word := BitVec 32

/-- A 64-bit doubleword (R9). -/
abbrev Doubleword := BitVec 64

/-- Eight hash words, `H[0..7]` (R22). -/
abbrev Hash := Vector Word 8

/-- Sixty-four bytes, a block (R6). -/
abbrev Block := Vector Byte 64

end Sys2Proof
end

