-- ==== Sys2Proof/Config.lean ====
section
/-! DEFINITION. The parameters the spec fixes for the DE (00_scope.md R6, R7). The open parameters of R8 stand where they
are used: `ENGINE_BASE` and `NUM_ENGINES` are arguments of Machine/Platform.lean; no rule depends on the others. -/

namespace Sys2Proof.Config

/-- MAX_LEN, the largest message length in bytes (R7, R25; 90_conflicts.md C5). -/
def maxLen : Nat := 2 ^ 61 - 1

/-- Bytes of a block and of the block buffer (R6). -/
def blockBytes : Nat := 64

/-- Size of the register window in bytes (R7, R50). -/
def windowBytes : Nat := 0x40

/-- Width of every admitted host access in bits (R7, R52). -/
def accessBits : Nat := 32

/-- Most message bytes one UPDATE takes (R7, R72). -/
def maxUpdateBytes : Nat := 4

end Sys2Proof.Config
end

