-- ==== Sys2Proof/Syntax.lean ====
section
/-! DEFINITION. The whole syntax: one constructor of `Instr` for every row of spec/opcode_table.json, the commands of the CMD
format, the two encoded formats, the host's requests as they reach the DE, and the named reasons for which decoding rejects. -/

namespace Sys2Proof

/-- The instructions: the three commands (30_encoding.md R74) and the seven host accesses (R78). -/
inductive Instr where
  /-- START: begin a new digest computation (40_digest_commands.md R101). -/
  | start
  /-- UPDATE n: feed the next `n` bytes of DATA (R102); `n` is the 3-bit field N (R72). -/
  | update (n : BitVec 3)
  /-- FINISH: pad and finalize (R104). -/
  | finish
  /-- WR_CMD v: a host write of the command word `v` (42_host_access.md R161). -/
  | wrCmd (v : Word)
  /-- WR_DATA v: a host write of DATA (R162). -/
  | wrData (v : Word)
  /-- RD_DATA (R163). -/
  | rdData
  /-- RD_STATUS (R164). -/
  | rdStatus
  /-- RD_LEN_LO (R165). -/
  | rdLenLo
  /-- RD_LEN_HI (R166). -/
  | rdLenHi
  /-- RD_DIGEST i (R167); `i` is the field off[4:2]. -/
  | rdDigest (i : BitVec 3)
deriving DecidableEq, Repr

/-- What a word written to CMD decodes to when it is legal (30_encoding.md R73). -/
inductive Command where
  | start
  | update (n : BitVec 3)
  | finish
deriving DecidableEq, Repr

/-- The instruction that a command is. -/
def Command.instr : Command → Instr
  | .start => .start
  | .update n => .update n
  | .finish => .finish

/-- Why an encoding is rejected. The first three make a CMD word ILLEGAL (R73, R75); the others make a host access a bus
error (20_memory.md R53 to R55). -/
inductive Reject where
  /-- A bit of RSV, bits 31:7, is set (R75). -/
  | reservedBits
  /-- OP is 0x0 or 0x4 to 0xF (R75). -/
  | unassignedOp
  /-- N is not 0 with START or FINISH, or is 5 to 7 with UPDATE (R75). -/
  | badCount
  /-- The access is not 32 bits wide (R53). -/
  | badWidth
  /-- The offset is not a multiple of 4 (R53). -/
  | misaligned
  /-- The offset is 0x0C, 0x18 or 0x1C (R54). -/
  | reservedOffset
  /-- A read of CMD (R55). -/
  | readOfCmd
  /-- A write of STATUS, LEN_LO, LEN_HI or a DIGEST slot (R55). -/
  | writeOfReadOnly
deriving DecidableEq, Repr

/-- An encoded instruction in one of the two formats: a CMD word (R70), or an access descriptor with the value a write
carries (R78; a read carries none, and its value field is not looked at). -/
inductive Code where
  | command (w : Word)
  | access (d : BitVec 7) (v : Word)
deriving DecidableEq, Repr

/-- A host access as it reaches the DE: its width in bits, its offset in the 0x40-byte register window, and the value of a
write. Every width and every offset can be presented (R53); the value of a write that is not 32 bits wide never matters. -/
inductive BusRequest where
  | read (width : Nat) (off : BitVec 6)
  | write (width : Nat) (off : BitVec 6) (v : Word)
deriving DecidableEq, Repr

/-- What reaches the DE from outside: a host access, or the reset event (70_reset_and_hazards.md R230). -/
inductive BusEvent where
  | access (r : BusRequest)
  | reset
deriving DecidableEq, Repr

end Sys2Proof
end

