-- ==== Sys2Proof/WellFormed.lean ====
section
/-! DEFINITION. Which instructions are well formed: the operand limits of 30_encoding.md R72 to R74. -/

namespace Sys2Proof

/-- UPDATE takes 0 to 4 bytes (R71); every other operand field admits all its values. -/
def Instr.wellFormed : Instr → Bool
  | .start => true
  | .update n => n.toNat ≤ Config.maxUpdateBytes
  | .finish => true
  | .wrCmd _ => true
  | .wrData _ => true
  | .rdData => true
  | .rdStatus => true
  | .rdLenLo => true
  | .rdLenHi => true
  | .rdDigest _ => true

/-- The well-formed instructions, as a proposition. -/
abbrev WellFormed (i : Instr) : Prop := i.wellFormed = true

end Sys2Proof
end

