-- ==== Sys2Proof/Decode.lean ====
section
/-! DEFINITION. Decoding of both formats, total and rejecting by name, then the encoder, written from the same tables
(30_encoding.md R71 to R79). -/

namespace Sys2Proof

/-- OP, bits 3:0 of a command word (R71). -/
def fieldOp (w : Word) : BitVec 4 := w.extractLsb' 0 4

/-- N, bits 6:4 of a command word (R71, R72). -/
def fieldN (w : Word) : BitVec 3 := w.extractLsb' 4 3

/-- RSV, bits 31:7 of a command word (R71). -/
def fieldRsv (w : Word) : BitVec 25 := w.extractLsb' 7 25

/-- The decoder of command words (R73); the rejections name the reason of R75. -/
def decodeCmd (w : Word) : Except Reject Command :=
  if fieldRsv w ≠ 0 then .error .reservedBits
  else if fieldOp w = 0x1 then if fieldN w = 0 then .ok .start else .error .badCount
  else if fieldOp w = 0x2 then
    if (fieldN w).toNat ≤ Config.maxUpdateBytes then .ok (.update (fieldN w)) else .error .badCount
  else if fieldOp w = 0x3 then if fieldN w = 0 then .ok .finish else .error .badCount
  else .error .unassignedOp

/-- The offset field off[5:0] of an access descriptor (R78). -/
def descriptorOffset (d : BitVec 7) : BitVec 6 := d.extractLsb' 0 6

/-- `dir`, bit 6 of an access descriptor: 1 for a write (R78). -/
def descriptorIsWrite (d : BitVec 7) : Bool := d.getLsbD 6

/-- The reserved offsets of the register map (20_memory.md R54). -/
def isReservedOffset (off : BitVec 6) : Bool := off = 0x0C || off = 0x18 || off = 0x1C

/-- A write at an aligned offset (R78, 20_memory.md R51, R54, R55). -/
def decodeWrite (off : BitVec 6) (v : Word) : Except Reject Instr :=
  if off = 0x00 then .ok (.wrCmd v)
  else if off = 0x04 then .ok (.wrData v)
  else if isReservedOffset off then .error .reservedOffset
  else .error .writeOfReadOnly

/-- A read at an aligned offset (R78, 20_memory.md R51, R54, R55); offsets from 0x20 on are DIGESTi, i = off[4:2]. -/
def decodeRead (off : BitVec 6) : Except Reject Instr :=
  if off = 0x00 then .error .readOfCmd
  else if off = 0x04 then .ok .rdData
  else if off = 0x08 then .ok .rdStatus
  else if off = 0x10 then .ok .rdLenLo
  else if off = 0x14 then .ok .rdLenHi
  else if isReservedOffset off then .error .reservedOffset
  else .ok (.rdDigest (off.extractLsb' 2 3))

/-- The decoder of access descriptors (R78). -/
def decodeAccess (d : BitVec 7) (v : Word) : Except Reject Instr :=
  if (descriptorOffset d).extractLsb' 0 2 ≠ 0 then .error .misaligned
  else if descriptorIsWrite d then decodeWrite (descriptorOffset d) v
  else decodeRead (descriptorOffset d)

/-- The decoder of encoded instructions, both formats. -/
def decode : Code → Except Reject Instr
  | .command w => (decodeCmd w).map Command.instr
  | .access d v => decodeAccess d v

/-- What a host access asks for (20_memory.md R52, R53): only a 32-bit access has a descriptor (R78). -/
def decodeRequest : BusRequest → Except Reject Instr
  | .read width off =>
    if width ≠ Config.accessBits then .error .badWidth else decodeAccess (0#1 ++ off) 0
  | .write width off v =>
    if width ≠ Config.accessBits then .error .badWidth else decodeAccess (1#1 ++ off) v

/-- The command word of each command: OP and N in their fields, RSV 0 (R71, R74). -/
def encodeCmd : Command → Word
  | .start => 0x00000001
  | .update n => 0#25 ++ n ++ 0x2#4
  | .finish => 0x00000003

/-- The encoded form of each instruction (R74, R78). -/
def encode : Instr → Code
  | .start => .command (encodeCmd .start)
  | .update n => .command (encodeCmd (.update n))
  | .finish => .command (encodeCmd .finish)
  | .wrCmd v => .access 0x40 v
  | .wrData v => .access 0x44 v
  | .rdData => .access 0x04 0
  | .rdStatus => .access 0x08 0
  | .rdLenLo => .access 0x10 0
  | .rdLenHi => .access 0x14 0
  | .rdDigest i => .access (0b01#2 ++ i ++ 0b00#2) 0

/-- The encoded form with the value field of a read set to 0, for a read carries no value (R78). -/
def Code.canonical : Code → Code
  | .command w => .command w
  | .access d v => if descriptorIsWrite d then .access d v else .access d 0

/-- How an encoded instruction is presented on the bus (R79): a command word is a write of it to CMD, a descriptor is the
32-bit access it names. -/
def Code.request : Code → BusRequest
  | .command w => .write Config.accessBits 0x00 w
  | .access d v =>
    if descriptorIsWrite d then .write Config.accessBits (descriptorOffset d) v
    else .read Config.accessBits (descriptorOffset d)

/-- The encoded instruction whose bits are `w`, numbered as spec/opcode_table.json numbers them: a row of the CMD format has
32 bits; a row of the ACCESS format has a 7-bit descriptor, one byte with its top bit 0, and the value of a write counts on
from bit 8 (so it is 0 where only the descriptor is given). -/
def tableCode (nbits w : Nat) : Option Code :=
  if nbits = 32 then if w < 2 ^ 32 then some (.command (BitVec.ofNat 32 w)) else none
  else if nbits = 7 ∨ nbits = 8 then if w < 2 ^ 7 then some (.access (BitVec.ofNat 7 w) 0) else none
  else if nbits = 40 then
    if w % 2 ^ 8 < 2 ^ 7 ∧ w < 2 ^ 40 then some (.access (BitVec.ofNat 7 w) (BitVec.ofNat 32 (w / 2 ^ 8))) else none
  else none

/-- The instruction the decoder reads from an instruction whose bits are `w` in the opcode table's numbering. -/
def decodeTableWord (nbits w : Nat) : Option Instr :=
  match tableCode nbits w with
  | none => none
  | some c =>
    match decode c with
    | .ok i => some i
    | .error _ => none

end Sys2Proof
end

