-- ==== Sys2Proof/Machine/State.lean ====
section
/-! DEFINITION. The state of one Digest Engine, plain data (10_state.md R20 to R28), the edge of the DE towards the host, the
reasons to stop, and the state after reset (70_reset_and_hazards.md R230). -/

namespace Sys2Proof.Machine

/-- STATE, the digest state machine (10_state.md R21). The code 3 is never produced, so there are three constructors. -/
inductive Phase where
  | idle
  | active
  | done
deriving DecidableEq, Repr

/-- CAUSE (10_state.md R27, 60_exceptions.md R201). The codes 5 to 15 are never produced. -/
inductive Cause where
  | none
  | illegalCmd
  | updateState
  | finishState
  | lengthOverflow
deriving DecidableEq, Repr

/-- What the last served access answered (42_host_access.md R160): no access yet, OK for a write, OK with the value of a
read, or BUSERR (60_exceptions.md R210). The model's own record of the bus, not state of the DE. -/
inductive BusResponse where
  | noAccess
  | okWrite
  | okRead (v : Word)
  | busErr
deriving DecidableEq, Repr

/-- The state. The first eight fields are the tuple of 10_state.md R20; the last three are the model's own. -/
structure State where
  /-- STATE (R21). -/
  state : Phase
  /-- H[0..7] (R22). -/
  h : Hash
  /-- BUF[0..63] (R23). -/
  buf : Block
  /-- BUFLEN (R24). -/
  bufLen : BitVec 6
  /-- TOTAL (R25). -/
  total : Doubleword
  /-- ERR (R26). -/
  err : Bool
  /-- CAUSE (R27). -/
  cause : Cause
  /-- DATA (R28). -/
  data : Word
  /-- The mark 60_exceptions.md R212 asks of a model: an engine error or a bus error has happened in this run. -/
  faulted : Bool
  /-- Host accesses and resets not yet served, the first to be served at the head (20_memory.md R63, R64). -/
  pending : List BusEvent
  /-- The answer to the access served last (R160). -/
  response : BusResponse
deriving DecidableEq, Repr

/-- The reasons the machine could stop with a fault: none. The spec gives every engine error and every bus error its whole
effect (60_exceptions.md R206, R210), so both are next states, and no constructor stands here. -/
inductive Fault where
deriving DecidableEq, Repr

/-- The reasons the machine could refuse an instruction. -/
inductive Refusal where
  /-- Raised by an arm of `exec` whose instruction has no meaning yet. No arm raises it in this model; it would be safe. -/
  | notModelled (mnemonic : String)
deriving DecidableEq, Repr

/-- The state after reset (70_reset_and_hazards.md R230). H and BUF: the spec gives no value and lets a model choose
(R22, R23), DESIGN CHOICE zero, log entry 1. The model's own fields: nothing has happened yet (log entries 2, 3, 4). -/
def State.reset : State where
  state := .idle
  h := Vector.replicate 8 0
  buf := Vector.replicate 64 0
  bufLen := 0
  total := 0
  err := false
  cause := .none
  data := 0
  faulted := false
  pending := []
  response := .noAccess

end Sys2Proof.Machine
end

