-- ==== Sys2Proof/Machine/Operands.lean ====
section
/-! DEFINITION. Byte orders and operand forms: BE32, BE64 (00_scope.md R11), the DATA lanes of UPDATE (20_memory.md R61), the
halves of TOTAL (10_state.md R31), the bit count (40_digest_commands.md R104), the digest words and bytes (20_memory.md R60). -/

namespace Sys2Proof.Machine

/-- BE32(b0, b1, b2, b3), the first byte the most significant (R11). -/
def be32 (b0 b1 b2 b3 : Byte) : Word := b0 ++ b1 ++ b2 ++ b3

/-- BE32bytes(w) (R11). -/
def be32Bytes (w : Word) : List Byte :=
  [w.extractLsb' 24 8, w.extractLsb' 16 8, w.extractLsb' 8 8, w.extractLsb' 0 8]

/-- BE64bytes(d), eight bytes, the most significant first (R11, R59). -/
def be64Bytes (d : Doubleword) : List Byte :=
  [d.extractLsb' 56 8, d.extractLsb' 48 8, d.extractLsb' 40 8, d.extractLsb' 32 8,
   d.extractLsb' 24 8, d.extractLsb' 16 8, d.extractLsb' 8 8, d.extractLsb' 0 8]

/-- Lane k of DATA, bits 31-8k : 24-8k, for k = 0..3 (R61). -/
def lane (d : Word) (k : Nat) : Byte := d.extractLsb' (24 - 8 * k) 8

/-- The message bytes an UPDATE with byte count n takes from DATA, the earliest first (R61, R102). -/
def lanes (n : BitVec 3) (d : Word) : List Byte := (List.range n.toNat).map (lane d)

/-- LEN_LO, TOTAL[31:0] (R31). -/
def lenLo (total : Doubleword) : Word := total.extractLsb' 0 32

/-- LEN_HI, TOTAL[63:32] (R31). -/
def lenHi (total : Doubleword) : Word := total.extractLsb' 32 32

/-- The bit count (TOTAL * 8) mod 2^64 (R104). -/
def bitCount (total : Doubleword) : Doubleword := total * 8

/-- Hash word i, the word DIGESTi reads (R60, R167). -/
def digestWord (h : Hash) (i : BitVec 3) : Word := h[i.toNat]'i.isLt

/-- The 32 digest bytes, BE32bytes(H[0]) || ... || BE32bytes(H[7]) (R60). -/
def digestBytes (h : Hash) : List Byte := h.toList.flatMap be32Bytes

/-- Byte a of the block buffer, 0 where a is no index of it. -/
def bufByte (s : State) (a : Nat) : Byte := s.buf[a]?.getD 0

end Sys2Proof.Machine
end

