-- ==== Sys2Proof/Machine/Compression.lean ====
section
/-! DEFINITION. The compression round: schedule, functions, constants, rounds, final addition (41_compression.md R130 to
R146). It is a pure function: the schedule and the working variables are not state (10_state.md R34). -/

namespace Sys2Proof.Machine

/-- SHR(x, n) for n < 32 (00_scope.md R10). -/
def shr (x : Word) (n : Nat) : Word := x >>> n

/-- ROTR(x, n) = SHR(x, n) | ((x * 2^(32-n)) mod 2^32) for 0 < n < 32 (00_scope.md R10). -/
def rotr (x : Word) (n : Nat) : Word := shr x n ||| (x <<< (32 - n))

/-- σ0 (R133). -/
def smallSigma0 (x : Word) : Word := rotr x 7 ^^^ rotr x 18 ^^^ shr x 3

/-- σ1 (R134). -/
def smallSigma1 (x : Word) : Word := rotr x 17 ^^^ rotr x 19 ^^^ shr x 10

/-- Σ0 (R135). -/
def bigSigma0 (x : Word) : Word := rotr x 2 ^^^ rotr x 13 ^^^ rotr x 22

/-- Σ1 (R136). -/
def bigSigma1 (x : Word) : Word := rotr x 6 ^^^ rotr x 11 ^^^ rotr x 25

/-- Ch (R137). -/
def choose (x y z : Word) : Word := (x &&& y) ^^^ (~~~x &&& z)

/-- Maj (R138). -/
def majority (x y z : Word) : Word := (x &&& y) ^^^ (x &&& z) ^^^ (y &&& z)

/-- The round constants K[0..63], a fixed table, one row of eight a line (R141). -/
def roundConstants : List Word :=
  [0x428a2f98, 0x71374491, 0xb5c0fbcf, 0xe9b5dba5, 0x3956c25b, 0x59f111f1, 0x923f82a4, 0xab1c5ed5] ++
  [0xd807aa98, 0x12835b01, 0x243185be, 0x550c7dc3, 0x72be5d74, 0x80deb1fe, 0x9bdc06a7, 0xc19bf174] ++
  [0xe49b69c1, 0xefbe4786, 0x0fc19dc6, 0x240ca1cc, 0x2de92c6f, 0x4a7484aa, 0x5cb0a9dc, 0x76f988da] ++
  [0x983e5152, 0xa831c66d, 0xb00327c8, 0xbf597fc7, 0xc6e00bf3, 0xd5a79147, 0x06ca6351, 0x14292967] ++
  [0x27b70a85, 0x2e1b2138, 0x4d2c6dfc, 0x53380d13, 0x650a7354, 0x766a0abb, 0x81c2c92e, 0x92722c85] ++
  [0xa2bfe8a1, 0xa81a664b, 0xc24b8b70, 0xc76c51a3, 0xd192e819, 0xd6990624, 0xf40e3585, 0x106aa070] ++
  [0x19a4c116, 0x1e376c08, 0x2748774c, 0x34b0bcb5, 0x391c0cb3, 0x4ed8aa4a, 0x5b9cca4f, 0x682e6ff3] ++
  [0x748f82ee, 0x78a5636f, 0x84c87814, 0x8cc70208, 0x90befffa, 0xa4506ceb, 0xbef9a3f7, 0xc67178f2]

/-- The initial hash value IV[0..7] (R142). -/
def initialHash : Hash :=
  #v[0x6a09e667, 0xbb67ae85, 0x3c6ef372, 0xa54ff53a, 0x510e527f, 0x9b05688c, 0x1f83d9ab, 0x5be0cd19]

/-- W[t] = BE32(blk[4t], ..., blk[4t+3]) for t = 0..15 (R131). -/
def blockWord (blk : Block) (t : Fin 16) : Word :=
  be32 blk[4 * t.val] blk[4 * t.val + 1] blk[4 * t.val + 2] blk[4 * t.val + 3]

/-- The word after the t words `ws`: σ1(W[t-2]) + W[t-7] + σ0(W[t-15]) + W[t-16], t = the length of `ws` (R132). -/
def nextScheduleWord (ws : List Word) : Word :=
  smallSigma1 (ws.getD (ws.length - 2) 0) + ws.getD (ws.length - 7) 0
    + smallSigma0 (ws.getD (ws.length - 15) 0) + ws.getD (ws.length - 16) 0

/-- `n` more schedule words, in increasing t (R132). -/
def extendSchedule : Nat → List Word → List Word
  | 0, ws => ws
  | n + 1, ws => extendSchedule n (ws ++ [nextScheduleWord ws])

/-- The message schedule W[0..63] of a block (R131, R132). -/
def schedule (blk : Block) : List Word := extendSchedule 48 ((List.finRange 16).map (blockWord blk))

/-- The working variables a..h (R139). -/
structure Working where
  a : Word
  b : Word
  c : Word
  d : Word
  e : Word
  f : Word
  g : Word
  h : Word
deriving DecidableEq, Repr

/-- The working variables from the hash words, in order (R139). -/
def loadWorking (hin : Hash) : Working := ⟨hin[0], hin[1], hin[2], hin[3], hin[4], hin[5], hin[6], hin[7]⟩

/-- T1 of a round with constant `k` and schedule word `w` (R140). -/
def temp1 (v : Working) (k w : Word) : Word := v.h + bigSigma1 v.e + choose v.e v.f v.g + k + w

/-- T2 of a round (R140). -/
def temp2 (v : Working) : Word := bigSigma0 v.a + majority v.a v.b v.c

/-- One round; every right-hand side reads the values from before it (R140). -/
def roundStep (v : Working) (k w : Word) : Working where
  a := temp1 v k w + temp2 v
  b := v.a
  c := v.b
  d := v.c
  e := v.d + temp1 v k w
  f := v.e
  g := v.f
  h := v.g

/-- The rounds t = 0..63 in increasing order, round t with K[t] and W[t] (R140). -/
def runRounds (v : Working) (ws : List Word) : Working :=
  (roundConstants.zip ws).foldl (fun v kw => roundStep v kw.1 kw.2) v

/-- The final addition, each word separately (R143). -/
def addWorking (hin : Hash) (v : Working) : Hash :=
  #v[hin[0] + v.a, hin[1] + v.b, hin[2] + v.c, hin[3] + v.d, hin[4] + v.e, hin[5] + v.f, hin[6] + v.g, hin[7] + v.h]

/-- Compress(Hin, blk) (R130). Irreducible, so that no proof unfolds 64 rounds by accident: `compress_eq` in Laws says what it
is. -/
@[irreducible]
def compress (hin : Hash) (blk : Block) : Hash := addWorking hin (runRounds (loadWorking hin) (schedule blk))

end Sys2Proof.Machine
end

