-- ==== Sys2Proof/Machine/Flags.lean ====
section
/-! DEFINITION. The status fields: the codes of STATE and CAUSE and the STATUS view (10_state.md R21, R27, R30;
60_exceptions.md R201). The DE has no arithmetic condition flags (41_compression.md R144). -/

namespace Sys2Proof.Machine

/-- The 2-bit code of STATE (R21). -/
def phaseCode : Phase → BitVec 2
  | .idle => 0
  | .active => 1
  | .done => 2

/-- The 4-bit code of CAUSE (R201). -/
def causeCode : Cause → BitVec 4
  | .none => 0
  | .illegalCmd => 1
  | .updateState => 2
  | .finishState => 3
  | .lengthOverflow => 4

/-- STATUS = zext_32(BUFLEN || CAUSE || 0b0 || ERR || STATE) (R30). -/
def statusWord (s : State) : Word :=
  (s.bufLen ++ causeCode s.cause ++ 0#1 ++ BitVec.ofBool s.err ++ phaseCode s.state).zeroExtend 32

/-- Digests can be read: STATE = DONE and ERR = 0 (42_host_access.md R167). -/
def digestReadable (s : State) : Bool := s.state = .done && !s.err

end Sys2Proof.Machine
end

