-- ==== Sys2Proof/Machine/Ops.lean ====
section
/-! DEFINITION. The operations the meanings share: the answer to an access, entering the error state (60_exceptions.md R206),
the bus error (R210), the one way out of the error state, reset (70_reset_and_hazards.md R230), the block buffer (absorb,
40_digest_commands.md R103, and padding, R104), and the frame of a command (R100). -/

namespace Sys2Proof.Machine

/-- The access is answered with `r` (42_host_access.md R160). -/
def respond (r : BusResponse) (s : State) : State := { s with response := r }

/-- `raise EngineError(c)`: ERR and CAUSE, nothing else of the DE (60_exceptions.md R206), and the model's mark (R212). -/
def raiseEngineError (c : Cause) (s : State) : State := { s with err := true, cause := c, faulted := true }

/-- `raise BusError`: an error response and no change of the DE (60_exceptions.md R210), and the model's mark (R212). -/
def raiseBusError (s : State) : State := { s with response := .busErr, faulted := true }

/-- The reset event: every element of the DE at its reset value (70_reset_and_hazards.md R230), the only way out of the error
state (60_exceptions.md R208). The mark stays (R212; DEDUCED for a reset, log entry 4), and so does
what is still pending. Reset is no access: it has no
response (log entry 3). -/
def resetEngine (s : State) : State := { State.reset with faulted := s.faulted, pending := s.pending }

/-- Absorb(b) (40_digest_commands.md R103): the byte goes to BUF[BUFLEN]; the 64th byte compresses the block at once. -/
def absorb (b : Byte) (s : State) : State :=
  let blk := s.buf.set s.bufLen.toNat b s.bufLen.isLt
  if s.bufLen.toNat = 63 then { s with buf := blk, h := compress s.h blk, bufLen := 0 }
  else { s with buf := blk, bufLen := s.bufLen + 1 }

/-- Absorb of each byte in order (R102). -/
def absorbAll (bs : List Byte) (s : State) : State := bs.foldl (fun s b => absorb b s) s

/-- `for k in lo..hi: BUF[k] <- 0x00`, hi inclusive (R104). -/
def zeroFill (lo hi : Nat) (blk : Block) : Block :=
  Vector.ofFn fun k => if lo ≤ k.val ∧ k.val ≤ hi then 0 else blk[k]

/-- `BUF[56..63] <- BE64bytes(Lbits)` (R104, 20_memory.md R59). -/
def putLength (lbits : Doubleword) (blk : Block) : Block :=
  Vector.ofFn fun k => if 56 ≤ k.val then (be64Bytes lbits).getD (k.val - 56) 0 else blk[k]

/-- The buffer after `BUF[BUFLEN] <- 0x80` (R104). -/
def markedBlock (s : State) : Block := s.buf.set s.bufLen.toNat 0x80 s.bufLen.isLt

/-- The last padded block: zeros from `p` to 55, then the length (R104). -/
def lengthBlock (p : Nat) (lbits : Doubleword) (blk : Block) : Block := putLength lbits (zeroFill p 55 blk)

/-- One compression of `blk`, which is what BUF then holds. -/
def compressBlock (blk : Block) (s : State) : State := { s with buf := blk, h := compress s.h blk }

/-- The padding of FINISH (R104): with p = BUFLEN + 1, two compressions when p > 56, one otherwise (R106). -/
def padAndCompress (s : State) : State :=
  let p := s.bufLen.toNat + 1
  let lbits := bitCount s.total
  if 56 < p then
    let spill := zeroFill p 63 (markedBlock s)
    compressBlock (lengthBlock 0 lbits spill) (compressBlock spill s)
  else compressBlock (lengthBlock p lbits (markedBlock s)) s

/-- DoStart() (R101). -/
def doStart (s : State) : State := { s with h := initialHash, bufLen := 0, total := 0, state := .active }

/-- DoUpdate(n) (R102), its errors checked in the order of 60_exceptions.md R209. -/
def doUpdate (n : BitVec 3) (s : State) : State :=
  if s.state ≠ .active then raiseEngineError .updateState s
  else if Config.maxLen < s.total.toNat + n.toNat then raiseEngineError .lengthOverflow s
  else absorbAll (lanes n s.data) { s with total := s.total + n.zeroExtend 64 }

/-- DoFinish() (R104). -/
def doFinish (s : State) : State :=
  if s.state ≠ .active then raiseEngineError .finishState s
  else { padAndCompress s with bufLen := 0, state := .done }

/-- The command of a legal word. -/
def doCommand : Command → State → State
  | .start => doStart
  | .update n => doUpdate n
  | .finish => doFinish

/-- ExecCmd (R100) after decoding: nothing while ERR = 1 (60_exceptions.md R207), ILLEGAL_CMD for a word that decodes to no
command (R202), else the command. -/
def issue (c : Except Reject Command) (s : State) : State :=
  if s.err then s
  else
    match c with
    | .error _ => raiseEngineError .illegalCmd s
    | .ok c => doCommand c s

/-- A write to CMD always completes OK at the bus (42_host_access.md R160, R161). -/
def completeCmd (c : Except Reject Command) (s : State) : State := respond .okWrite (issue c s)

/-- The command an UPDATE with count field `n` is; 5 to 7 make the word illegal (30_encoding.md R73). -/
def updateCommand (n : BitVec 3) : Except Reject Command :=
  if n.toNat ≤ Config.maxUpdateBytes then .ok (.update n) else .error .badCount

end Sys2Proof.Machine
end

