-- ==== Sys2Proof/Machine/Accesses.lean ====
section
/-! DEFINITION. The meanings of the host accesses (42_host_access.md R161 to R167). -/

namespace Sys2Proof.Machine

/-- WR_CMD v (R161): ExecCmd(v) (40_digest_commands.md R100). -/
def execWrCmd (v : Word) (s : State) : Host.Outcome State Fault Refusal := .next (completeCmd (decodeCmd v) s)

/-- WR_DATA v (R162): in every STATE and whatever ERR is. -/
def execWrData (v : Word) (s : State) : Host.Outcome State Fault Refusal := .next (respond .okWrite { s with data := v })

/-- RD_DATA (R163). -/
def execRdData (s : State) : Host.Outcome State Fault Refusal := .next (respond (.okRead s.data) s)

/-- RD_STATUS (R164). -/
def execRdStatus (s : State) : Host.Outcome State Fault Refusal := .next (respond (.okRead (statusWord s)) s)

/-- RD_LEN_LO (R165). -/
def execRdLenLo (s : State) : Host.Outcome State Fault Refusal := .next (respond (.okRead (lenLo s.total)) s)

/-- RD_LEN_HI (R166). -/
def execRdLenHi (s : State) : Host.Outcome State Fault Refusal := .next (respond (.okRead (lenHi s.total)) s)

/-- RD_DIGEST i (R167): a bus error outside DONE or when ERR = 1. -/
def execRdDigest (i : BitVec 3) (s : State) : Host.Outcome State Fault Refusal :=
  if digestReadable s then .next (respond (.okRead (digestWord s.h i)) s) else .next (raiseBusError s)

end Sys2Proof.Machine
end

