-- ==== Sys2Proof/Machine/Commands.lean ====
section
/-! DEFINITION. The meanings of START, UPDATE and FINISH (40_digest_commands.md R100 to R104), each a write of its word to CMD
(30_encoding.md R79). -/

namespace Sys2Proof.Machine

/-- START (R101). -/
def execStart (s : State) : Host.Outcome State Fault Refusal := .next (completeCmd (.ok .start) s)

/-- UPDATE n (R102). -/
def execUpdate (n : BitVec 3) (s : State) : Host.Outcome State Fault Refusal :=
  .next (completeCmd (updateCommand n) s)

/-- FINISH (R104). -/
def execFinish (s : State) : Host.Outcome State Fault Refusal := .next (completeCmd (.ok .finish) s)

end Sys2Proof.Machine
end

