-- ==== Sys2Proof/Machine/Dispatch.lean ====
section
/-! DEFINITION. One arm per instruction. -/

namespace Sys2Proof.Machine

def exec (i : Instr) (s : State) : Host.Outcome State Fault Refusal :=
  match i with
  | .start => Sys2Proof.Machine.execStart s
  | .update n => Sys2Proof.Machine.execUpdate n s
  | .finish => Sys2Proof.Machine.execFinish s
  | .wrCmd v => Sys2Proof.Machine.execWrCmd v s
  | .wrData v => Sys2Proof.Machine.execWrData v s
  | .rdData => Sys2Proof.Machine.execRdData s
  | .rdStatus => Sys2Proof.Machine.execRdStatus s
  | .rdLenLo => Sys2Proof.Machine.execRdLenLo s
  | .rdLenHi => Sys2Proof.Machine.execRdLenHi s
  | .rdDigest k => Sys2Proof.Machine.execRdDigest k s

end Sys2Proof.Machine
end

