-- ==== Sys2Proof/Machine/Bus.lean ====
section
/-! DEFINITION. Serving what reaches the DE from outside: a host access that decodes runs its instruction, any other host
access is a bus error (20_memory.md R53 to R55), a reset resets (70_reset_and_hazards.md R230). -/

namespace Sys2Proof.Machine

/-- One host access, one atomic step (20_memory.md R57). -/
def serveRequest (r : BusRequest) (s : State) : Host.Outcome State Fault Refusal :=
  match decodeRequest r with
  | .ok i => exec i s
  | .error _ => .next (raiseBusError s)

/-- One event from outside. -/
def serveEvent (e : BusEvent) (s : State) : Host.Outcome State Fault Refusal :=
  match e with
  | .access r => serveRequest r s
  | .reset => .next (resetEngine s)

/-- The bus request that presents the opcode-table word `w` of `nbits` bits, if the table's formats have such a word. -/
def tableRequest (nbits w : Nat) : Option BusRequest := (tableCode nbits w).map Code.request

end Sys2Proof.Machine
end

