-- ==== Sys2Proof/Machine/Step.lean ====
section
/-! DEFINITION. One step: the event at the head of `pending` is taken and served (20_memory.md R57, R63); with none pending
the engine holds its state (60_exceptions.md R219). -/

namespace Sys2Proof.Machine

/-- One step of the machine. -/
def step (s : State) : Host.Outcome State Fault Refusal :=
  match s.pending with
  | [] => .next s
  | e :: rest => serveEvent e { s with pending := rest }

/-- `s` with the host access that presents the opcode-table word `w` put in front of what is pending, so that the next step
serves it; `s` itself where the table's formats have no such word. -/
def State.withFetchWord (s : State) (nbits w : Nat) : State :=
  match tableRequest nbits w with
  | some r => { s with pending := .access r :: s.pending }
  | none => s

end Sys2Proof.Machine
end

