-- ==== Sys2Proof/Machine/Platform.lean ====
section
/-! DEFINITION. A platform with several engines (60_exceptions.md R218): each has its own register window and its own copy of
every state element. `NUM_ENGINES` is the length of the list and `ENGINE_BASE` an engine's `base` (00_scope.md R8). -/

namespace Sys2Proof.Machine

/-- One engine of a platform: the host bus address of its register offset 0x00, and its state. -/
structure Engine where
  base : Nat
  engine : State
deriving DecidableEq, Repr

/-- A host access to a bus address. -/
inductive AddressedAccess where
  | read (width addr : Nat)
  | write (width addr : Nat) (v : Word)
deriving DecidableEq, Repr

/-- The address of an access. -/
def accessAddr : AddressedAccess → Nat
  | .read _ addr => addr
  | .write _ addr _ => addr

/-- The request an access becomes at a register offset (00_scope.md R12). -/
def requestAt (off : BitVec 6) : AddressedAccess → BusRequest
  | .read width _ => .read width off
  | .write width _ v => .write width off v

/-- The register offset of an address in the 0x40-byte window at `base`; none outside it (20_memory.md R50, R54). -/
def windowOffset (base addr : Nat) : Option (BitVec 6) :=
  if base ≤ addr ∧ addr < base + Config.windowBytes then some (BitVec.ofNat 6 (addr - base)) else none

/-- The state an outcome leaves (a step of this machine never stops, so the second case does not occur). -/
def outcomeState (s : State) : Host.Outcome State Fault Refusal → State
  | .next t => t
  | .fault _ => s
  | .refused _ => s

/-- One event at the engine with index `k`; the others are not touched (R218). -/
def serveAt (k : Nat) (e : BusEvent) (es : List Engine) : List Engine :=
  es.modify k fun g => { g with engine := outcomeState g.engine (serveEvent e g.engine) }

/-- The index and register offset an address belongs to, the first window that holds it. -/
def locate (addr : Nat) : List Engine → Option (Nat × BitVec 6)
  | [] => none
  | g :: es =>
    match windowOffset g.base addr with
    | some off => some (0, off)
    | none => (locate addr es).map fun p => (p.1 + 1, p.2)

/-- One host access on the platform; none where the address is in no engine's window, for what such an address reaches is the
platform's (20_memory.md R54). -/
def platformAccess (a : AddressedAccess) (es : List Engine) : Option (List Engine) :=
  (locate (accessAddr a) es).map fun p => serveAt p.1 (.access (requestAt p.2 a)) es

/-- There is at least one engine, bases are aligned to 0x40, and no two engines share a window (R8, R50, R218). -/
def platformWellFormed (es : List Engine) : Bool :=
  decide (1 ≤ es.length) && es.all (fun g => g.base % Config.windowBytes = 0) && decide ((es.map Engine.base).Nodup)

end Sys2Proof.Machine
end

