-- ==== Sys2Proof/Machine/Assembler.lean ====
section
/-! DEFINITION. The lines of a host program and the pseudo-instructions FEED, DIGEST and HASH (30_encoding.md R79, R80). A
program is the list of events its lines put on the bus. -/

namespace Sys2Proof.Machine

/-- One line of a host program (R79). -/
inductive AsmLine where
  /-- An instruction by its mnemonic. -/
  | instr (i : Instr)
  /-- `RD @off`, a 32-bit read at any offset. -/
  | rdAt (off : BitVec 6)
  /-- `WR @off, imm32`, a 32-bit write at any offset. -/
  | wrAt (off : BitVec 6) (v : Word)
  /-- `RESET`, not a bus access. -/
  | reset
deriving DecidableEq, Repr

/-- What a line puts on the bus (R79). -/
def lineEvent : AsmLine → BusEvent
  | .instr i => .access (encode i).request
  | .rdAt off => .access (.read Config.accessBits off)
  | .wrAt off v => .access (.write Config.accessBits off v)
  | .reset => .reset

/-- The events of a program. -/
def assemble (p : List AsmLine) : List BusEvent := p.map lineEvent

/-- One group of FEED: `WR DATA, v` then `UPDATE n` (R80). -/
def feedGroup (v : Word) (n : BitVec 3) : List AsmLine := [.instr (.wrData v), .instr (.update n)]

/-- `FEED b_0, ...`: groups of four bytes, the last one shorter, bytes past the end 0x00 (R80). -/
def feed : List Byte → List AsmLine
  | b0 :: b1 :: b2 :: b3 :: rest => feedGroup (be32 b0 b1 b2 b3) 4 ++ feed rest
  | [b0, b1, b2] => feedGroup (be32 b0 b1 b2 0) 3
  | [b0, b1] => feedGroup (be32 b0 b1 0 0) 2
  | [b0] => feedGroup (be32 b0 0 0 0) 1
  | [] => []

/-- `DIGEST`: RD DIGEST0 to RD DIGEST7 (R80). -/
def digestReads : List AsmLine := (List.range 8).map fun i => .instr (.rdDigest (BitVec.ofNat 3 i))

/-- `HASH b_0, ...` (R80). -/
def hashProgram (m : List Byte) : List AsmLine := [.instr .start] ++ feed m ++ [.instr .finish] ++ digestReads

end Sys2Proof.Machine
end

