-- ==== Sys2Proof/Machine/Reference.lean ====
section
/-! DEFINITION. What the engine's results are measured against, written from the rules that speak of whole messages and not of
the buffer: pad(M) (40_digest_commands.md R105), SHA256words(M) (R109), the derivations of the constant tables
(41_compression.md R141, R142), and a compression with a 16-word rolling schedule (R146). -/

namespace Sys2Proof.Machine

/-- The zero count z = (55 - L) mod 64 (R105). -/
def padZeros (len : Nat) : Nat := ((55 - (len : Int)) % 64).toNat

/-- pad(M) = M || 0x80 || z zeros || BE64bytes((8 * L) mod 2^64) (R105). -/
def padMessage (m : List Byte) : List Byte :=
  m ++ [0x80] ++ List.replicate (padZeros m.length) 0 ++ be64Bytes (BitVec.ofNat 64 (8 * m.length))

/-- Block k of a byte sequence: its bytes 64k to 64k+63. Irreducible, so that no proof unfolds 64 bytes by accident:
`blockAt_getElem` in Laws gives its bytes. -/
@[irreducible]
def blockAt (bs : List Byte) (k : Nat) : Block := Vector.ofFn fun j => bs.getD (64 * k + j.val) 0

/-- The first n blocks of a byte sequence, compressed in order from `h`. -/
def hashBlocks (h : Hash) (bs : List Byte) (n : Nat) : Hash :=
  (List.range n).foldl (fun h k => compress h (blockAt bs k)) h

/-- SHA256words(M): from the IV, Compress over the 64-byte blocks of pad(M) in order (R109). -/
def sha256Words (m : List Byte) : Hash := hashBlocks initialHash (padMessage m) ((padMessage m).length / 64)

/-- The first 64 primes, p_1 = 2 to p_64 = 311 (R141). -/
def primes64 : List Nat :=
  [2, 3, 5, 7, 11, 13, 17, 19, 23, 29, 31, 37, 41, 43, 47, 53] ++
  [59, 61, 67, 71, 73, 79, 83, 89, 97, 101, 103, 107, 109, 113, 127, 131] ++
  [137, 139, 149, 151, 157, 163, 167, 173, 179, 181, 191, 193, 197, 199, 211, 223] ++
  [227, 229, 233, 239, 241, 251, 257, 263, 269, 271, 277, 281, 283, 293, 307, 311]

/-- The window of 16 schedule words, moved on by one (R132, R146). -/
def rollWindow (ws : List Word) : List Word :=
  ws.tail ++ [smallSigma1 (ws.getD 14 0) + ws.getD 9 0 + smallSigma0 (ws.getD 1 0) + ws.getD 0 0]

/-- One round of the rolling computation: the round takes the window's first word (R146). -/
def rollingRound (p : Working × List Word) (k : Word) : Working × List Word :=
  (roundStep p.1 k (p.2.getD 0 0), rollWindow p.2)

/-- Compress with a 16-word rolling schedule (R146). -/
def compressRolling (hin : Hash) (blk : Block) : Hash :=
  addWorking hin
    (roundConstants.foldl rollingRound (loadWorking hin, (List.finRange 16).map (blockWord blk))).1

end Sys2Proof.Machine
end

