-- ==== Sys2Proof/Safety.lean ====
section
/-! DEFINITION. The terms claims use: a fault-free run (60_exceptions.md R212), the invariants between accesses (10_state.md
R35), which message a state has ingested (R35, 40_digest_commands.md R107), what a host can tell apart (R22, R23), and what a
host sees of a run. -/

namespace Sys2Proof.Machine

/-- A run of `k` steps from `s` met no engine error and no bus error (60_exceptions.md R212; the mark is never cleared). -/
def FaultFree (k : Nat) (s : State) : Prop := ∃ t, Host.Core.run Sys2Proof.core k s = .next t ∧ t.faulted = false

/-- The accesses the spec lists as bus errors in a state (60_exceptions.md R210; 20_memory.md R53 to R55; 42_host_access.md
R167), spelled out from those rules and not from the decoder. -/
def BusErrorListed (s : State) : BusRequest → Prop
  | .read width off =>
    width ≠ 32 ∨ off.toNat % 4 ≠ 0 ∨ off = 0x00 ∨ off = 0x0C ∨ off = 0x18 ∨ off = 0x1C ∨
      (0x20 ≤ off.toNat ∧ (s.state ≠ .done ∨ s.err = true))
  | .write width off _ =>
    width ≠ 32 ∨ off.toNat % 4 ≠ 0 ∨ off = 0x08 ∨ off = 0x0C ∨ off = 0x10 ∨ off = 0x14 ∨ off = 0x18 ∨ off = 0x1C ∨
      0x20 ≤ off.toNat

/-- The instructions that execute a command word: a write to CMD (30_encoding.md R70). -/
def executesCommand : Instr → Bool
  | .start => true
  | .update _ => true
  | .finish => true
  | .wrCmd _ => true
  | .wrData _ => false
  | .rdData => false
  | .rdStatus => false
  | .rdLenLo => false
  | .rdLenHi => false
  | .rdDigest _ => false

/-- The instructions that read a register. -/
def readsRegister : Instr → Bool
  | .start => false
  | .update _ => false
  | .finish => false
  | .wrCmd _ => false
  | .wrData _ => false
  | .rdData => true
  | .rdStatus => true
  | .rdLenLo => true
  | .rdLenHi => true
  | .rdDigest _ => true

/-- The words of 30_encoding.md R75 that are illegal, field by field. -/
def IllegalWord (w : Word) : Prop :=
  fieldRsv w ≠ 0 ∨ (fieldOp w ≠ 1 ∧ fieldOp w ≠ 2 ∧ fieldOp w ≠ 3) ∨ (fieldOp w = 1 ∧ fieldN w ≠ 0) ∨
    (fieldOp w = 3 ∧ fieldN w ≠ 0) ∨ (fieldOp w = 2 ∧ 5 ≤ (fieldN w).toNat)

/-- The conditions under which a command raises no error while ERR = 0 (40_digest_commands.md R110; 60_exceptions.md R203 to
R205). -/
def commandSucceeds (s : State) : Command → Prop
  | .start => True
  | .update n => s.state = .active ∧ n.toNat ≤ 4 ∧ s.total.toNat + n.toNat ≤ Config.maxLen
  | .finish => s.state = .active

/-- The state after an engine error with cause `c` in a CMD write: ERR and CAUSE (60_exceptions.md R206), the mark (R212), and
the write completed OK (42_host_access.md R160). -/
def errorState (c : Cause) (s : State) : State :=
  { s with err := true, cause := c, faulted := true, response := .okWrite }

/-- The state after a bus error: the error response and the mark, nothing of the DE (60_exceptions.md R210, R212). -/
def busErrorState (s : State) : State := { s with response := .busErr, faulted := true }

/-- The invariants on the registers: R35 (2, 4, 5), TOTAL <= MAX_LEN (R25), CAUSE is 0 exactly when ERR = 0 (R27), and an
error leaves the mark (R212). BUFLEN <= 63 (R35 1) is in the type. -/
structure Invariant (s : State) : Prop where
  totalBound : s.total.toNat ≤ Config.maxLen
  activeLen : s.state = .active → s.bufLen.toNat = s.total.toNat % 64
  doneLen : s.state = .done → s.bufLen = 0
  idleLen : s.state = .idle → s.bufLen = 0 ∧ s.total = 0
  causeErr : s.cause = .none ↔ s.err = false
  errMarked : s.err = true → s.faulted = true

/-- The engine is ingesting and the message so far is `m`: TOTAL is its length, BUF holds its unprocessed tail in order, and H
is the IV with its full blocks compressed into it (R23, R24, R25, R35 2 and 3). -/
structure Ingested (m : List Byte) (s : State) : Prop where
  active : s.state = .active
  totalLen : s.total.toNat = m.length
  bufLenMod : s.bufLen.toNat = m.length % 64
  tail : ∀ k, k < s.bufLen.toNat → bufByte s k = m.getD (64 * (m.length / 64) + k) 0
  hash : s.h = hashBlocks initialHash m (m.length / 64)

/-- The computation over `m` is finalized: H is its digest (R35 4), TOTAL its length (R25). -/
structure Finalized (m : List Byte) (s : State) : Prop where
  done : s.state = .done
  totalLen : s.total.toNat = m.length
  drained : s.bufLen = 0
  digest : s.h = sha256Words m

/-- The state of the engine agrees with the message `m` of its computation, whatever its phase. -/
def Tracks (m : List Byte) (s : State) : Prop :=
  match s.state with
  | .idle => s.bufLen = 0 ∧ s.total = 0
  | .active => Ingested m s
  | .done => Finalized m s

/-- The message after a command word has been written to CMD, if `m` was the message before (40_digest_commands.md R107):
START begins the empty message, a successful UPDATE appends its bytes, nothing else changes it. -/
def messageAfterCmd (w : Word) (m : List Byte) (s : State) : List Byte :=
  if s.err then m
  else
    match decodeCmd w with
    | .ok .start => []
    | .ok (.update n) =>
      if s.state = .active ∧ s.total.toNat + n.toNat ≤ Config.maxLen then m ++ lanes n s.data else m
    | .ok .finish => m
    | .error _ => m

/-- The message after one step. -/
def messageAfterStep (m : List Byte) (s : State) : List Byte :=
  match s.pending with
  | .access r :: _ =>
    match decodeRequest r with
    | .ok (.wrCmd w) => messageAfterCmd w m s
    | _ => m
  | _ => m

/-- Two states no host can tell apart: they differ at most in H before the first START and in the bytes of BUF that hold no
message byte (10_state.md R22, R23; 60_exceptions.md R217). -/
structure Indistinguishable (s t : State) : Prop where
  state : s.state = t.state
  bufLen : s.bufLen = t.bufLen
  total : s.total = t.total
  err : s.err = t.err
  cause : s.cause = t.cause
  data : s.data = t.data
  faulted : s.faulted = t.faulted
  pending : s.pending = t.pending
  response : s.response = t.response
  hash : s.state ≠ .idle → s.h = t.h
  tail : s.state = .active → ∀ k, k < s.bufLen.toNat → bufByte s k = bufByte t k

/-- What the host is answered in the next `k` steps, one answer for each event served (none for a reset). -/
def transcript : Nat → State → List BusResponse
  | 0, _ => []
  | k + 1, s =>
    match s.pending with
    | [] => []
    | _ :: _ =>
      match step s with
      | .next t => t.response :: transcript k t
      | .fault _ => []
      | .refused _ => []

/-- The events that feed a list of DATA words with their byte counts: `WR DATA, v` and `UPDATE n` for each (30_encoding.md
R80, R81). -/
def feedChunks (cs : List (Word × BitVec 3)) : List BusEvent := assemble (cs.flatMap fun c => feedGroup c.1 c.2)

/-- The message the chunks make up, the concatenation of their bytes in order (40_digest_commands.md R107). -/
def chunksMessage (cs : List (Word × BitVec 3)) : List Byte := cs.flatMap fun c => lanes c.2 c.1

/-- The events of a whole computation: START, the chunks, FINISH. -/
def digestEvents (cs : List (Word × BitVec 3)) : List BusEvent :=
  assemble [.instr .start] ++ feedChunks cs ++ assemble [.instr .finish]

end Sys2Proof.Machine
end

