-- ==== Sys2Proof/Certificates/Slice0/Obligations.lean ====
section
/-! DEFINITION. The statements about the model, each from a rule of spec/ or a section of it. -/

open Sys2Proof Sys2Proof.Machine

/-! ### Encoding -/

/-- Decoding what the encoder writes gives the instruction back, and whatever decodes is well formed and encodes to the same
code (up to the value field of a read, which carries none). 30_encoding.md, both formats. -/
def Obligations.DecodeAndEncodeAgree : Prop :=
  (∀ i, WellFormed i → decode (encode i) = .ok i) ∧
  (∀ c i, decode c = .ok i → WellFormed i ∧ encode i = c.canonical)

/-- R74: the legal command words are the seven of the table, and the match and mask of each row, with N <= 4. -/
def Obligations.ExactlySevenLegalCommandWords : Prop :=
  (∀ w c, decodeCmd w = .ok c ↔
    (w = 0x00000001 ∧ c = .start) ∨ (w = 0x00000002 ∧ c = .update 0) ∨ (w = 0x00000012 ∧ c = .update 1) ∨
    (w = 0x00000022 ∧ c = .update 2) ∨ (w = 0x00000032 ∧ c = .update 3) ∨ (w = 0x00000042 ∧ c = .update 4) ∨
    (w = 0x00000003 ∧ c = .finish)) ∧
  (∀ w : Word, (decodeCmd w = .ok .start ↔ w &&& 0xFFFFFFFF = 0x00000001) ∧
    (decodeCmd w = .ok .finish ↔ w &&& 0xFFFFFFFF = 0x00000003) ∧
    ((∃ n, decodeCmd w = .ok (.update n)) ↔ w &&& 0xFFFFFF8F = 0x00000002 ∧ (w.extractLsb' 4 3).toNat ≤ 4)) ∧
  (∀ w ∈ ([0x00000052, 0x00000062, 0x00000072] : List Word), ∃ r, decodeCmd w = .error r)

/-- R75: the illegal words, field by field; each raises ILLEGAL_CMD and does nothing else; the all-zero word is one. -/
def Obligations.IllegalWordsRaiseIllegalCmd : Prop :=
  (∀ w, (∃ r, decodeCmd w = .error r) ↔ IllegalWord w) ∧
  (∀ w s, s.err = false → IllegalWord w → exec (.wrCmd w) s = .next (errorState .illegalCmd s)) ∧
  IllegalWord 0

/-- R78: the admitted descriptors are those of the table by match and mask, with i = off[4:2]; every other descriptor is a bus
error, and so is every access that is not 32 bits wide or not word-aligned, which has no descriptor. -/
def Obligations.AdmittedDescriptors : Prop :=
  (∀ (d : BitVec 7) (v : Word) (i : Instr), decodeAccess d v = .ok i ↔
    (d &&& 0x7F = 0x40 ∧ i = .wrCmd v) ∨ (d &&& 0x7F = 0x44 ∧ i = .wrData v) ∨ (d &&& 0x7F = 0x04 ∧ i = .rdData) ∨
    (d &&& 0x7F = 0x08 ∧ i = .rdStatus) ∨ (d &&& 0x7F = 0x10 ∧ i = .rdLenLo) ∨ (d &&& 0x7F = 0x14 ∧ i = .rdLenHi) ∨
    (d &&& 0x63 = 0x20 ∧ i = .rdDigest (d.extractLsb' 2 3))) ∧
  (∀ (off : BitVec 6) (v : Word), decodeRequest (.read 32 off) = decodeAccess (0#1 ++ off) 0 ∧
    decodeRequest (.write 32 off v) = decodeAccess (1#1 ++ off) v) ∧
  (∀ (width : Nat) (off : BitVec 6) (v : Word) (s : State), width ≠ 32 ∨ off.extractLsb' 0 2 ≠ 0#2 →
    serveRequest (.read width off) s = .next (busErrorState s) ∧
    serveRequest (.write width off v) s = .next (busErrorState s)) ∧
  (∀ r s, (∀ i, decodeRequest r ≠ .ok i) → serveRequest r s = .next (busErrorState s))

/-- Words of the opcode table, written out from the encodings of 30_encoding.md R74 and R78, decode to their instructions, and a
few words next to them do not decode. -/
def Obligations.TableWordsDecode : Prop :=
  decodeTableWord 32 0b00000000000000000000000000000001 = some .start ∧
  decodeTableWord 32 0b00000000000000000000000000110010 = some (.update 3) ∧
  decodeTableWord 32 0b00000000000000000000000000000011 = some .finish ∧
  decodeTableWord 8 0b1000000 = some (.wrCmd 0) ∧
  decodeTableWord 8 0b1000100 = some (.wrData 0) ∧
  decodeTableWord 8 0b0000100 = some .rdData ∧
  decodeTableWord 8 0b0001000 = some .rdStatus ∧
  decodeTableWord 8 0b0010000 = some .rdLenLo ∧
  decodeTableWord 8 0b0010100 = some .rdLenHi ∧
  decodeTableWord 8 0b0111000 = some (.rdDigest 6) ∧
  decodeTableWord 32 0b00000000000000000000000001010010 = none ∧
  decodeTableWord 32 0b00000000000000000000000010000010 = none ∧
  decodeTableWord 8 0b0001100 = none ∧
  decodeTableWord 8 0b1001000 = none

/-! ### Steps -/

/-- One step serves the event at the head: an access that decodes runs its instruction, any other access is a bus error, a reset
resets, and with nothing pending the state stays. The queue is the model's own (log entry 2). -/
def Obligations.StepServesTheHeadEvent : Prop :=
  ∀ s : State,
    (s.pending = [] → step s = .next s) ∧
    (∀ r rest i, s.pending = .access r :: rest → decodeRequest r = .ok i → step s = exec i { s with pending := rest }) ∧
    (∀ r rest e, s.pending = .access r :: rest → decodeRequest r = .error e →
      step s = .next (busErrorState { s with pending := rest })) ∧
    (∀ rest, s.pending = .reset :: rest → step s = .next (resetEngine { s with pending := rest }))

/-- A step on the bus form of any well-formed instruction runs exactly that instruction, a command by way of the CMD write that
it is (30_encoding.md R79). -/
def Obligations.StepRunsTheEncodedInstruction : Prop :=
  ∀ s i rest, WellFormed i → s.pending = .access (encode i).request :: rest → step s = exec i { s with pending := rest }

/-- The step after placing an opcode-table word runs the instruction the decoder reads from it. The placing is the model's own
interface (log entry 2). -/
def Obligations.FetchedWordRunsItsInstruction : Prop :=
  ∀ s nbits w i, decodeTableWord nbits w = some i → step (s.withFetchWord nbits w) = exec i s

/-- R100: a command word written to CMD does nothing while ERR = 1, raises ILLEGAL_CMD when it decodes to no command, and is the
command it decodes to otherwise. -/
def Obligations.WrCmdExecutesTheWord : Prop :=
  ∀ v s,
    (s.err = true → exec (.wrCmd v) s = .next { s with response := .okWrite }) ∧
    (s.err = false → ∀ r, decodeCmd v = .error r → exec (.wrCmd v) s = .next (errorState .illegalCmd s)) ∧
    (s.err = false → ∀ c, decodeCmd v = .ok c → exec (.wrCmd v) s = exec c.instr s)

/-- WR_CMD completes with the command's own effect, for every legal word whose command raises no error (42_host_access.md
R161). -/
def Obligations.WrCmdCompletes : Prop :=
  ∀ v c s, s.err = false → decodeCmd v = .ok c → commandSucceeds s c →
    ∃ t, exec (.wrCmd v) s = .next t ∧ t = { doCommand c s with response := .okWrite } ∧ t.err = false ∧
      t.cause = s.cause ∧ t.faulted = s.faulted ∧ t.data = s.data ∧ t.pending = s.pending

/-! ### START, UPDATE, FINISH -/

/-- R101: START in every STATE. -/
def Obligations.StartBeginsAComputation : Prop :=
  decodeCmd 0x00000001 = .ok .start ∧
  (∀ s : State, s.err = false →
    exec .start s =
      .next { s with h := initialHash, bufLen := 0, total := 0, state := .active, response := .okWrite }) ∧
  (∀ s t i, s.err = false → exec .start s = .next t → exec (.rdDigest i) t = .next (busErrorState t)) ∧
  (∀ t, exec .start State.reset = .next t →
    exec .rdStatus t = .next { t with response := .okRead 0x00000001 } ∧
    exec .rdLenLo t = .next { t with response := .okRead 0 } ∧ exec .rdLenHi t = .next { t with response := .okRead 0 } ∧
    t.h = initialHash)

/-- R102: UPDATE n is the word 0x00000002 + 16n; outside ACTIVE and past MAX_LEN it is an error that absorbs nothing, otherwise it
counts TOTAL and absorbs its lanes in order (R103 says what absorbing a byte is); with no bytes it changes nothing. -/
def Obligations.UpdateAbsorbsItsLanes : Prop :=
  (∀ (n : BitVec 3) (s : State), s.err = false → s.state = .active → n.toNat ≤ 4 →
    s.total.toNat + n.toNat ≤ Config.maxLen →
    exec (.update n) s =
      .next { absorbAll (lanes n s.data) { s with total := s.total + n.zeroExtend 64 } with response := .okWrite }) ∧
  (∀ (n : BitVec 3) (s : State), s.err = false → n.toNat ≤ 4 → s.state ≠ .active →
    exec (.update n) s = .next (errorState .updateState s)) ∧
  (∀ (n : BitVec 3) (s : State), s.err = false → s.state = .active → n.toNat ≤ 4 →
    Config.maxLen < s.total.toNat + n.toNat → exec (.update n) s = .next (errorState .lengthOverflow s)) ∧
  (∀ n : BitVec 3, n.toNat ≤ 4 → decodeCmd (0x00000002 + 16 * n.zeroExtend 32) = .ok (.update n)) ∧
  (∀ (b : Byte) (bs : List Byte) (s : State), absorbAll [] s = s ∧ absorbAll (b :: bs) s = absorbAll bs (absorb b s)) ∧
  (∀ s : State, s.err = false → s.state = .active → s.total.toNat ≤ Config.maxLen →
    exec (.update 0) s = .next { s with response := .okWrite })

/-- R103: Absorb(b). -/
def Obligations.AbsorbStoresAndCompressesAtTheLastByte : Prop :=
  ∀ (b : Byte) (s : State),
    (s.bufLen.toNat ≠ 63 →
      absorb b s = { s with buf := s.buf.set s.bufLen.toNat b s.bufLen.isLt, bufLen := s.bufLen + 1 }) ∧
    (s.bufLen.toNat = 63 → ∀ blk, blk = s.buf.set s.bufLen.toNat b s.bufLen.isLt →
      absorb b s = { s with buf := blk, h := compress s.h blk, bufLen := 0 })

/-- What UPDATE n leaves in each register and each byte of BUF: byte k goes to BUF[(BUFLEN + k) mod 64] and nowhere else; BUFLEN
and TOTAL count; H changes only when the 64th byte is reached, by one compression of the completed block
(40_digest_commands.md R102, R103). -/
def Obligations.UpdateRegistersAndBuffer : Prop :=
  ∀ (n : BitVec 3) (s t : State), s.err = false → s.state = .active → n.toNat ≤ 4 →
    s.total.toNat + n.toNat ≤ Config.maxLen → exec (.update n) s = .next t →
    t.state = .active ∧ t.total.toNat = s.total.toNat + n.toNat ∧
    t.bufLen.toNat = (s.bufLen.toNat + n.toNat) % 64 ∧
    t.err = false ∧ t.cause = s.cause ∧ t.data = s.data ∧ t.faulted = s.faulted ∧ t.pending = s.pending ∧
    t.response = .okWrite ∧
    (∀ k, k < n.toNat → bufByte t ((s.bufLen.toNat + k) % 64) = s.data.extractLsb' (24 - 8 * k) 8) ∧
    (∀ a, (∀ k, k < n.toNat → a ≠ (s.bufLen.toNat + k) % 64) → bufByte t a = bufByte s a) ∧
    (s.bufLen.toNat + n.toNat < 64 → t.h = s.h) ∧
    (64 ≤ s.bufLen.toNat + n.toNat → ∀ blk : Block,
      (∀ (a : Nat) (ha : a < 64), blk[a] =
        if a < s.bufLen.toNat then bufByte s a else s.data.extractLsb' (24 - 8 * (a - s.bufLen.toNat)) 8) →
      t.h = compress s.h blk)

/-- R104, R59: FINISH is the word 0x00000003 and an error outside ACTIVE. In ACTIVE with BUFLEN at most 55, it is one compression
of the message tail, 0x80, zeros and the bit count; with BUFLEN at least 56, two, the second block being zeros and the bit count.
BUF holds the last block. TOTAL, DATA and the error registers stay. -/
def Obligations.FinishPadsAndCompresses : Prop :=
  decodeCmd 0x00000003 = .ok .finish ∧
  (∀ s : State, s.err = false → s.state ≠ .active → exec .finish s = .next (errorState .finishState s)) ∧
  ∀ s : State, s.err = false → s.state = .active →
    ∃ t, exec .finish s = .next t ∧
      t.state = .done ∧ t.bufLen = 0 ∧ t.total = s.total ∧ t.err = false ∧ t.cause = s.cause ∧ t.data = s.data ∧
      t.faulted = s.faulted ∧ t.pending = s.pending ∧ t.response = .okWrite ∧
      (∀ k, k < 8 → bufByte t (56 + k) = BitVec.ofNat 8 ((s.total.toNat * 8) >>> (56 - 8 * k))) ∧
      (s.bufLen.toNat ≤ 55 →
        t.h = compress s.h t.buf ∧
        ∀ a, a < 56 → bufByte t a =
          if a < s.bufLen.toNat then bufByte s a else if a = s.bufLen.toNat then 0x80 else 0) ∧
      (56 ≤ s.bufLen.toNat →
        (∀ a, a < 56 → bufByte t a = 0) ∧
        ∀ first : Block,
          (∀ (a : Nat) (ha : a < 64), first[a] =
            if a < s.bufLen.toNat then bufByte s a else if a = s.bufLen.toNat then 0x80 else 0) →
          t.h = compress (compress s.h first) t.buf)

/-! ### Engine errors -/

/-- R203: UPDATE_STATE, for any legal N, in IDLE and in DONE. -/
def Obligations.UpdateOutsideActiveIsAnError : Prop :=
  ∀ (n : BitVec 3) (s : State), s.err = false → n.toNat ≤ 4 → (s.state = .idle ∨ s.state = .done) →
    exec (.update n) s = .next (errorState .updateState s)

/-- R204: FINISH_STATE in IDLE and in DONE; H is unchanged and no longer readable. -/
def Obligations.FinishOutsideActiveIsAnError : Prop :=
  ∀ s : State, s.err = false → (s.state = .idle ∨ s.state = .done) →
    exec .finish s = .next (errorState .finishState s) ∧ (errorState .finishState s).h = s.h ∧
    ∀ i, exec (.rdDigest i) (errorState .finishState s) = .next (busErrorState (errorState .finishState s))

/-- R205: LENGTH_OVERFLOW absorbs nothing and leaves TOTAL, so TOTAL <= MAX_LEN at reset and kept by every step. -/
def Obligations.LengthOverflowIsRefused : Prop :=
  (∀ (n : BitVec 3) (s : State), s.err = false → n.toNat ≤ 4 → s.state = .active →
    2 ^ 61 - 1 < s.total.toNat + n.toNat → exec (.update n) s = .next (errorState .lengthOverflow s)) ∧
  State.reset.total.toNat ≤ 2 ^ 61 - 1 ∧
  (∀ s t, s.total.toNat ≤ 2 ^ 61 - 1 → step s = .next t → t.total.toNat ≤ 2 ^ 61 - 1)

/-- R209: at most one error a command, the first that applies: ERR = 1, ILLEGAL_CMD, the state errors, LENGTH_OVERFLOW; with
none of them the command raises none. -/
def Obligations.ErrorPriority : Prop :=
  ∀ w s t, exec (.wrCmd w) s = .next t →
    (s.err = true → t.err = true ∧ t.cause = s.cause ∧ t.faulted = s.faulted) ∧
    (s.err = false → IllegalWord w → t.err = true ∧ t.cause = .illegalCmd) ∧
    (s.err = false → ∀ n, decodeCmd w = .ok (.update n) → s.state ≠ .active → t.err = true ∧ t.cause = .updateState) ∧
    (s.err = false → decodeCmd w = .ok .finish → s.state ≠ .active → t.err = true ∧ t.cause = .finishState) ∧
    (s.err = false → ∀ n, decodeCmd w = .ok (.update n) → s.state = .active →
      2 ^ 61 - 1 < s.total.toNat + n.toNat → t.err = true ∧ t.cause = .lengthOverflow) ∧
    (s.err = false → ∀ c, decodeCmd w = .ok c → commandSucceeds s c → t.err = false ∧ t.cause = s.cause)

/-- R206: a step that raises an engine error writes ERR and CAUSE and nothing else of the DE (the model takes the event off the
queue, marks the run, and answers OK). -/
def Obligations.ErrorEntryIsPrecise : Prop :=
  ∀ s t, s.err = false → step s = .next t → t.err = true →
    ∃ e rest c, s.pending = e :: rest ∧ c ≠ .none ∧ t = errorState c { s with pending := rest }

/-- R207: while ERR = 1 a CMD write does nothing, and DATA writes and the admitted reads keep working, but for DIGEST reads. -/
def Obligations.HaltedEngine : Prop :=
  ∀ s : State, s.err = true →
    (∀ i, executesCommand i = true → exec i s = .next { s with response := .okWrite }) ∧
    (∀ v, exec (.wrData v) s = .next { s with data := v, response := .okWrite }) ∧
    (∀ i, readsRegister i = true → (∀ k, i ≠ .rdDigest k) → ∃ v, exec i s = .next { s with response := .okRead v }) ∧
    (∀ k, exec (.rdDigest k) s = .next (busErrorState s))

/-- R208: only a reset clears ERR and CAUSE, and after it the DE is in IDLE, where UPDATE and FINISH are errors. -/
def Obligations.OnlyResetLeavesTheErrorState : Prop :=
  (∀ s t, s.err = true → step s = .next t → (t.err = false ∨ t.cause ≠ s.cause) → ∃ rest, s.pending = .reset :: rest) ∧
  (∀ s rest, s.pending = .reset :: rest →
    ∃ t, step s = .next t ∧ t.err = false ∧ t.cause = .none ∧ t.state = .idle ∧
      exec .finish t = .next (errorState .finishState t) ∧
      ∀ n : BitVec 3, n.toNat ≤ 4 → exec (.update n) t = .next (errorState .updateState t))

/-! ### Bus errors and the mark -/

/-- R210: the accesses that are bus errors are those the spec lists, each answered with BUSERR and no change of the DE. -/
def Obligations.BusErrorsAreTheListedAccesses : Prop :=
  ∀ r s,
    (BusErrorListed s r → serveRequest r s = .next (busErrorState s)) ∧
    (¬ BusErrorListed s r → ∃ t, serveRequest r s = .next t ∧ t.response ≠ .busErr)

/-- R211: a bus error does not set ERR, and commands run after it exactly as before. -/
def Obligations.BusErrorDoesNotHaltTheEngine : Prop :=
  ∀ r s t, serveRequest r s = .next t → t.response = .busErr →
    t.err = s.err ∧ t.cause = s.cause ∧
    ∀ i, executesCommand i = true → exec i t = exec i { s with faulted := true }

/-- Every engine error and every bus error sets the mark, and no later step removes it (60_exceptions.md R212). That a reset does
not remove it either is the model's reading of R212 (DEDUCED, log entry 4). -/
def Obligations.FaultMarkIsSticky : Prop :=
  (∀ s t, s.err = false → step s = .next t → t.err = true → t.faulted = true) ∧
  (∀ s r rest t, s.pending = .access r :: rest → step s = .next t → t.response = .busErr → t.faulted = true) ∧
  (∀ k s t, s.faulted = true → Host.Core.run Sys2Proof.core k s = .next t → t.faulted = true)

/-! ### Accesses -/

/-- R162: WR_DATA, descriptor 0x44, in every STATE and whatever ERR is; of two writes the second stays; RD_DATA returns the value. -/
def Obligations.WriteDataStoresTheWord : Prop :=
  (∀ v, decodeAccess 0x44 v = .ok (.wrData v)) ∧
  (∀ v (s : State), exec (.wrData v) s = .next { s with data := v, response := .okWrite }) ∧
  (∀ v w s t, exec (.wrData v) s = .next t → exec (.wrData w) t = exec (.wrData w) s) ∧
  (∀ v s t, exec (.wrData v) s = .next t → exec .rdData t = .next { t with response := .okRead v })

/-- R163: RD_DATA, descriptor 0x04, returns DATA, 0 after reset, and UPDATE does not change it. -/
def Obligations.ReadDataReturnsData : Prop :=
  (∀ v, decodeAccess 0x04 v = .ok .rdData) ∧
  (∀ s : State, exec .rdData s = .next { s with response := .okRead s.data }) ∧
  exec .rdData State.reset = .next { State.reset with response := .okRead 0x00000000 } ∧
  (∀ n s t, exec (.update n) s = .next t → t.data = s.data)

/-- R30: the STATUS view at offset 0x08, field by field, and its value after reset. -/
def Obligations.StatusFields : Prop :=
  decodeRequest (.read 32 0x08) = .ok .rdStatus ∧
  (∀ s : State, ∃ v, exec .rdStatus s = .next { s with response := .okRead v } ∧
    v.extractLsb' 0 2 = (match s.state with | .idle => 0#2 | .active => 1#2 | .done => 2#2) ∧
    v.getLsbD 2 = s.err ∧ v.getLsbD 3 = false ∧
    v.extractLsb' 4 4 = (match s.cause with
      | .none => 0#4 | .illegalCmd => 1#4 | .updateState => 2#4 | .finishState => 3#4 | .lengthOverflow => 4#4) ∧
    v.extractLsb' 8 6 = s.bufLen ∧ v.extractLsb' 14 18 = 0#18) ∧
  exec .rdStatus State.reset = .next { State.reset with response := .okRead 0x00000000 }

/-- R31: the two halves of TOTAL at offsets 0x10 and 0x14, readable in every STATE and whatever ERR is. -/
def Obligations.LengthHalves : Prop :=
  decodeRequest (.read 32 0x10) = .ok .rdLenLo ∧ decodeRequest (.read 32 0x14) = .ok .rdLenHi ∧
  ∀ s : State, ∃ lo hi : Word,
    exec .rdLenLo s = .next { s with response := .okRead lo } ∧ exec .rdLenHi s = .next { s with response := .okRead hi } ∧
    lo.toNat = s.total.toNat % 2 ^ 32 ∧ hi.toNat = s.total.toNat / 2 ^ 32 ∧
    (s.total.toNat ≤ 2 ^ 61 - 1 → hi.extractLsb' 29 3 = 0#3) ∧ (s = State.reset → lo = 0 ∧ hi = 0)

/-- R167: RD_DIGEST i, match 0x20 and mask 0x63, reads H[i] in DONE with ERR = 0, repeatably, and is a bus error otherwise; after
a START in DONE it is a bus error. -/
def Obligations.DigestReadsTheHash : Prop :=
  (∀ (d : BitVec 7) (v : Word), d &&& 0x63 = 0x20 → decodeAccess d v = .ok (.rdDigest (d.extractLsb' 2 3))) ∧
  (∀ (i : BitVec 3) (s t : State), s.state = .done → s.err = false → exec .start s = .next t →
    exec (.rdDigest i) t = .next (busErrorState t)) ∧
  ∀ (i : BitVec 3) (s : State),
    (s.state = .done → s.err = false →
      exec (.rdDigest i) s = .next { s with response := .okRead (s.h[i.toNat]'i.isLt) } ∧
      ∀ t, exec (.rdDigest i) s = .next t → exec (.rdDigest i) t = .next t) ∧
    (s.state ≠ .done ∨ s.err = true → exec (.rdDigest i) s = .next (busErrorState s))

/-- R56: reads change nothing of the DE and give the same answer again; a DATA write changes DATA only; a CMD write leaves
DATA. -/
def Obligations.SideEffectsOfAccesses : Prop :=
  (∀ i s t, readsRegister i = true → exec i s = .next t →
    t = { s with response := t.response, faulted := t.faulted } ∧ exec i t = .next t) ∧
  (∀ v s t, exec (.wrData v) s = .next t → t = { s with data := t.data, response := t.response }) ∧
  (∀ i s t, executesCommand i = true → exec i s = .next t → t.data = s.data)

/-- What a CMD write leaves unchanged, command by command, when it raises no error: DATA, ERR, CAUSE, the mark and the queue
always; BUF by START; TOTAL by FINISH; STATE by UPDATE (40_digest_commands.md R101 to R104). -/
def Obligations.CommandFrame : Prop :=
  ∀ c s t, s.err = false → (c = .start ∨ c = .finish ∨ ∃ n : BitVec 3, n.toNat ≤ 4 ∧ c = .update n) →
    commandSucceeds s c → exec c.instr s = .next t →
    t.data = s.data ∧ t.err = s.err ∧ t.cause = s.cause ∧ t.faulted = s.faulted ∧ t.pending = s.pending ∧
    (c = .start → ∀ a, bufByte t a = bufByte s a) ∧
    (c = .finish → t.total = s.total ∧ ∀ a, s.bufLen.toNat ≤ 55 → a < s.bufLen.toNat → bufByte t a = bufByte s a) ∧
    (∀ n, c = .update n → t.state = s.state ∧
      ∀ a, (∀ k, k < n.toNat → a ≠ (s.bufLen.toNat + k) % 64) → bufByte t a = bufByte s a)

/-! ### Registers over steps -/

/-- DATA changes only by a host write to offset 0x04 or by reset (10_state.md R28). -/
def Obligations.OnlyDataWritesChangeData : Prop :=
  ∀ s t, step s = .next t → t.data ≠ s.data →
    ∃ rest, s.pending = .access (.write 32 0x04 t.data) :: rest ∨ (s.pending = .reset :: rest ∧ t.data = 0)

/-- TOTAL is written only by START and reset, to 0, and by a successful UPDATE, by its byte count (10_state.md R25). -/
def Obligations.OnlyIngestionRaisesTotal : Prop :=
  ∀ s t, step s = .next t → t.total ≠ s.total →
    ∃ rest, (s.pending = .reset :: rest ∧ t.total = 0) ∨
      (s.pending = .access (.write 32 0x00 0x00000001) :: rest ∧ t.total = 0) ∨
      (∃ (w : Word) (n : BitVec 3), s.pending = .access (.write 32 0x00 w) :: rest ∧ decodeCmd w = .ok (.update n) ∧
        s.state = .active ∧ t.total.toNat = s.total.toNat + n.toNat)

/-- In DONE, H, STATE and so the digest stay until a START or a reset (10_state.md R32). -/
def Obligations.DigestStaysUntilStartOrReset : Prop :=
  ∀ s t, s.state = .done → step s = .next t →
    (∃ rest, s.pending = .reset :: rest ∨ s.pending = .access (.write 32 0x00 0x00000001) :: rest) ∨
    (t.h = s.h ∧ t.state = .done ∧ t.total = s.total ∧ t.bufLen = s.bufLen)

/-- R110: the transitions of the digest state machine. -/
def Obligations.PhaseTransitions : Prop :=
  (∀ w s t, s.err = false → exec (.wrCmd w) s = .next t →
    (decodeCmd w = .ok .start →
      t.state = .active ∧ t.err = false ∧ t.h = initialHash ∧ t.bufLen = 0 ∧ t.total = 0) ∧
    (∀ n, decodeCmd w = .ok (.update n) → t.state = s.state ∧
      (s.state = .active → (s.total.toNat + n.toNat ≤ 2 ^ 61 - 1 → t.err = false) ∧
        (2 ^ 61 - 1 < s.total.toNat + n.toNat → t.err = true ∧ t.cause = .lengthOverflow)) ∧
      (s.state ≠ .active → t.err = true ∧ t.cause = .updateState)) ∧
    (decodeCmd w = .ok .finish →
      (s.state = .active → t.state = .done ∧ t.err = false) ∧
      (s.state ≠ .active → t.state = s.state ∧ t.err = true ∧ t.cause = .finishState)) ∧
    ((∃ r, decodeCmd w = .error r) → t.state = s.state ∧ t.err = true ∧ t.cause = .illegalCmd)) ∧
  (∀ w s t, s.err = true → exec (.wrCmd w) s = .next t → t.state = s.state ∧ t.err = true) ∧
  (∀ s rest t, s.pending = .reset :: rest → step s = .next t → t.state = .idle)

/-- R236: a DATA write before the CMD write of an UPDATE is seen by it, one after it is not. -/
def Obligations.UpdateSeesEarlierDataWrites : Prop :=
  ∀ (v w : Word) (n : BitVec 3) (s : State) (rest : List BusEvent), decodeCmd w = .ok (.update n) →
    (s.pending = .access (.write 32 0x04 v) :: .access (.write 32 0x00 w) :: rest →
      Host.Core.run Sys2Proof.core 2 s = exec (.update n) { s with data := v, pending := rest }) ∧
    (s.pending = .access (.write 32 0x00 w) :: .access (.write 32 0x04 v) :: rest →
      ∀ t, exec (.update n) { s with pending := rest } = .next t →
        Host.Core.run Sys2Proof.core 2 s = .next { t with data := v })

/-! ### Reset and whole-machine statements -/

/-- A reset gives every element the value the spec states for it, whatever the state was, and then STATUS, LEN_LO, LEN_HI and
DATA read 0 and every DIGEST read is a bus error (70_reset_and_hazards.md R230). -/
def Obligations.ResetValues : Prop :=
  ∀ s rest, s.pending = .reset :: rest →
    ∃ t, step s = .next t ∧ t.state = .idle ∧ t.bufLen = 0 ∧ t.total = 0 ∧ t.err = false ∧ t.cause = .none ∧
      t.data = 0 ∧ t.faulted = s.faulted ∧ t.pending = rest ∧
      exec .rdStatus t = .next { t with response := .okRead 0 } ∧ exec .rdLenLo t = .next { t with response := .okRead 0 } ∧
      exec .rdLenHi t = .next { t with response := .okRead 0 } ∧ exec .rdData t = .next { t with response := .okRead 0 } ∧
      ∀ i, exec (.rdDigest i) t = .next (busErrorState t)

/-- The invariants hold of the reset state (10_state.md R35). -/
def Obligations.InvariantHoldsAtReset : Prop := Invariant State.reset

/-- Every step keeps the invariants, from every state that has them (10_state.md R35, R36). -/
def Obligations.StepKeepsInvariant : Prop := ∀ s t, Invariant s → step s = .next t → Invariant t

/-- Every step keeps the relation between the engine and the message of its computation: BUF holds the tail, H the full blocks,
and after FINISH H is the digest (10_state.md R35, R36). -/
def Obligations.StepTracksTheMessage : Prop :=
  (∀ m, Tracks m State.reset) ∧
  (∀ m s t, Tracks m s → step s = .next t → Tracks (messageAfterStep m s) t)

/-- No instruction and no step stops the machine (60_exceptions.md R200; 70_reset_and_hazards.md R238). -/
def Obligations.EveryInstructionAndStepCompletes : Prop :=
  (∀ i s, ∃ t, exec i s = .next t) ∧ (∀ s, ∃ t, step s = .next t) ∧
  (∀ k s, ∃ t, Host.Core.run Sys2Proof.core k s = .next t)

/-- R109: from any state with ERR = 0, START, any chunks of at most 4 bytes within the length limit, and FINISH leave the digest of
the message: H = SHA256words(M), and digest byte 4i + j is byte j of BE32bytes(H[i]). -/
def Obligations.DigestIsTheHashOfTheMessage : Prop :=
  ∀ cs s rest, s.err = false → (∀ c ∈ cs, c.2.toNat ≤ 4) → (chunksMessage cs).length ≤ 2 ^ 61 - 1 →
    s.pending = digestEvents cs ++ rest →
    ∃ t, Host.Core.run Sys2Proof.core (digestEvents cs).length s = .next t ∧ Finalized (chunksMessage cs) t ∧
      t.err = false ∧ t.faulted = s.faulted ∧ t.pending = rest ∧
      digestBytes t.h = (sha256Words (chunksMessage cs)).toList.flatMap be32Bytes

/-- R107, R108: the digest depends on the message only, not on its split into UPDATEs, not on ignored lanes, not on what happened
before the START. -/
def Obligations.StreamingEquivalence : Prop :=
  ∀ cs ds s₁ s₂ t₁ t₂ rest₁ rest₂, s₁.err = false → s₂.err = false →
    (∀ c ∈ cs, c.2.toNat ≤ 4) → (∀ d ∈ ds, d.2.toNat ≤ 4) → chunksMessage cs = chunksMessage ds →
    (chunksMessage cs).length ≤ 2 ^ 61 - 1 →
    s₁.pending = digestEvents cs ++ rest₁ → s₂.pending = digestEvents ds ++ rest₂ →
    Host.Core.run Sys2Proof.core (digestEvents cs).length s₁ = .next t₁ →
    Host.Core.run Sys2Proof.core (digestEvents ds).length s₂ = .next t₂ →
    t₁.state = .done ∧ t₂.state = .done ∧ t₁.h = t₂.h ∧ t₁.total = t₂.total

/-- The HASH program of 30_encoding.md R80: every write completes OK, the eight reads return the digest words of the message, and
no fault is marked. -/
def Obligations.HashProgramReadsTheDigest : Prop :=
  ∀ (m : List Byte) (s : State), s.err = false → s.faulted = false → m.length ≤ 2 ^ 61 - 1 →
    s.pending = assemble (hashProgram m) →
    transcript s.pending.length s =
      List.replicate (2 + (feed m).length) .okWrite ++ (sha256Words m).toList.map .okRead ∧
    FaultFree s.pending.length s

/-- What the spec leaves unspecified cannot be observed: states that differ only in H outside a computation, or in BUF bytes that
hold no message byte, give the host the same answers for ever; so H and BUF at reset do not matter, whatever the host does
(10_state.md R22, R23; log entry 1). -/
def Obligations.UnspecifiedStateIsUnobservable : Prop :=
  (∀ s s' t, Indistinguishable s s' → step s = .next t → ∃ t', step s' = .next t' ∧ Indistinguishable t t') ∧
  (∀ k s s', Indistinguishable s s' → transcript k s = transcript k s') ∧
  (∀ k h b p, transcript k { State.reset with pending := p } = transcript k { State.reset with h := h, buf := b, pending := p })

/-! ### Compression and padding -/

/-- R10: the operators on words: SHR and ROTR as exact numbers, for the amounts the rule allows, sums modulo 2^32 in any order, and
the bitwise operators bit by bit. -/
def Obligations.ShiftsAreExact : Prop :=
  (∀ (x : Word) (n : Nat), n < 32 → (shr x n).toNat = x.toNat / 2 ^ n) ∧
  (∀ (x : Word) (n : Nat), 0 < n → n < 32 →
    (rotr x n).toNat = x.toNat / 2 ^ n ||| (x.toNat * 2 ^ (32 - n)) % 2 ^ 32) ∧
  (∀ (x : Word) (n i : Nat), 0 < n → n < 32 → i < 32 → (rotr x n).getLsbD i = x.getLsbD ((i + n) % 32)) ∧
  (∀ x y : Word, (x + y).toNat = (x.toNat + y.toNat) % 2 ^ 32) ∧
  (∀ ws : List Word, (ws.foldl (· + ·) 0).toNat = (ws.map BitVec.toNat).sum % 2 ^ 32) ∧
  (∀ x : Word, ~~~x = x ^^^ 0xFFFFFFFF) ∧
  (∀ (x y : Word) (i : Nat), (x &&& y).getLsbD i = (x.getLsbD i && y.getLsbD i) ∧
    (x ||| y).getLsbD i = (x.getLsbD i || y.getLsbD i) ∧ (x ^^^ y).getLsbD i = (x.getLsbD i ^^ y.getLsbD i))

/-- R137, R138: each bit of x chooses the bit of y or of z; each bit is the majority of three. With the rules' examples. -/
def Obligations.ChooseAndMajority : Prop :=
  (∀ (x y z : Word) (i : Nat), i < 32 →
    (choose x y z).getLsbD i = if x.getLsbD i then y.getLsbD i else z.getLsbD i) ∧
  (∀ (x y z : Word) (i : Nat), i < 32 →
    ((majority x y z).getLsbD i = true ↔
      2 ≤ (x.getLsbD i).toNat + (y.getLsbD i).toNat + (z.getLsbD i).toNat)) ∧
  (∀ x y z : Word, choose x y z = (x &&& y) ^^^ (~~~x &&& z) ∧ majority x y z = (x &&& y) ^^^ (x &&& z) ^^^ (y &&& z)) ∧
  choose 0xF0F0F0F0 0xCCCCCCCC 0xAAAAAAAA = 0xCACACACA ∧ majority 0xF0F0F0F0 0xCCCCCCCC 0xAAAAAAAA = 0xE8E8E8E8

/-- R133 to R136: each bit of the four functions, by the rotation amounts, and the rules' examples. -/
def Obligations.SigmaFunctions : Prop :=
  (∀ (x : Word) (i : Nat), i < 32 →
    (smallSigma0 x).getLsbD i =
      ((x.getLsbD ((i + 7) % 32) ^^ x.getLsbD ((i + 18) % 32)) ^^ (decide (i + 3 < 32) && x.getLsbD (i + 3))) ∧
    (smallSigma1 x).getLsbD i =
      ((x.getLsbD ((i + 17) % 32) ^^ x.getLsbD ((i + 19) % 32)) ^^ (decide (i + 10 < 32) && x.getLsbD (i + 10))) ∧
    (bigSigma0 x).getLsbD i =
      ((x.getLsbD ((i + 2) % 32) ^^ x.getLsbD ((i + 13) % 32)) ^^ x.getLsbD ((i + 22) % 32)) ∧
    (bigSigma1 x).getLsbD i =
      ((x.getLsbD ((i + 6) % 32) ^^ x.getLsbD ((i + 11) % 32)) ^^ x.getLsbD ((i + 25) % 32))) ∧
  smallSigma0 1 = 0x02004000 ∧ smallSigma1 1 = 0x0000A000 ∧ bigSigma0 1 = 0x40080400 ∧ bigSigma1 1 = 0x04200080

/-- R131, R132: 64 schedule words, the first sixteen the block's big-endian words, the others by the recurrence. -/
def Obligations.ScheduleWords : Prop :=
  ∀ blk : Block, (schedule blk).length = 64 ∧
    (∀ (t : Nat) (ht : t < 16), (schedule blk).getD t 0 =
      be32 (blk[4 * t]'(by omega)) (blk[4 * t + 1]'(by omega)) (blk[4 * t + 2]'(by omega)) (blk[4 * t + 3]'(by omega))) ∧
    (∀ t, 16 ≤ t → t < 64 → (schedule blk).getD t 0 =
      smallSigma1 ((schedule blk).getD (t - 2) 0) + (schedule blk).getD (t - 7) 0
        + smallSigma0 ((schedule blk).getD (t - 15) 0) + (schedule blk).getD (t - 16) 0)

/-- R130, R139, R140, R143: Compress is 64 rounds in increasing t, round t with K[t] and W[t], from the hash words in order, and
the final addition word by word. -/
def Obligations.CompressRunsSixtyFourRounds : Prop :=
  ∀ (hin : Hash) (blk : Block), ∃ v : Nat → Working,
    v 0 = ⟨hin[0], hin[1], hin[2], hin[3], hin[4], hin[5], hin[6], hin[7]⟩ ∧
    (∀ t, t < 64 →
      let x := v t
      let t1 := x.h + bigSigma1 x.e + choose x.e x.f x.g + roundConstants.getD t 0 + (schedule blk).getD t 0
      let t2 := bigSigma0 x.a + majority x.a x.b x.c
      v (t + 1) = ⟨t1 + t2, x.a, x.b, x.c, x.d + t1, x.e, x.f, x.g⟩) ∧
    compress hin blk = #v[hin[0] + (v 64).a, hin[1] + (v 64).b, hin[2] + (v 64).c, hin[3] + (v 64).d,
      hin[4] + (v 64).e, hin[5] + (v 64).f, hin[6] + (v 64).g, hin[7] + (v 64).h]

/-- R146: a 16-word rolling schedule gives the same compression for every input. -/
def Obligations.RollingScheduleAgrees : Prop := ∀ hin blk, compressRolling hin blk = compress hin blk

/-- The constant tables are the ones the derivations give: K[t] the first 32 bits of the fractional part of the cube root of the
(t+1)-th prime, IV[i] of the square root of the (i+1)-th prime (41_compression.md R141, R142), the floors as in the rules. -/
def Obligations.ConstantTablesFromPrimes : Prop :=
  primes64.length = 64 ∧ (∀ p, p ∈ primes64 ↔ Nat.Prime p ∧ p ≤ 311) ∧ primes64.Pairwise (· < ·) ∧
  (∀ t, t < 64 → ∃ c, c ^ 3 ≤ primes64.getD t 0 * 2 ^ 96 ∧ primes64.getD t 0 * 2 ^ 96 < (c + 1) ^ 3 ∧
    (roundConstants.getD t 0).toNat = c % 2 ^ 32) ∧
  (∀ (i : Nat) (hi : i < 8), ∃ c, c ^ 2 ≤ primes64.getD i 0 * 2 ^ 64 ∧ primes64.getD i 0 * 2 ^ 64 < (c + 1) ^ 2 ∧
    (initialHash[i]).toNat = c % 2 ^ 32)

/-- The padded message: it is M, 0x80, the least number of zeros that makes its length 56 mod 64 before the length field, and the
bit count, big-endian; its length is a multiple of 64 (40_digest_commands.md R105). -/
def Obligations.PaddedMessageShape : Prop :=
  ∀ m : List Byte, ∃ z, padMessage m = m ++ [0x80] ++ List.replicate z 0 ++ be64Bytes (BitVec.ofNat 64 (8 * m.length)) ∧
    (m.length + 1 + z) % 64 = 56 ∧ (∀ z', (m.length + 1 + z') % 64 = 56 → z ≤ z') ∧
    (padMessage m).length = m.length + 1 + z + 8 ∧ (padMessage m).length % 64 = 0 ∧
    (padMessage m).length / 64 = m.length / 64 + (if m.length % 64 ≤ 55 then 1 else 2)

/-- R11: the byte-order primitives. -/
def Obligations.ByteOrderPrimitives : Prop :=
  (∀ b0 b1 b2 b3 : Byte,
    (be32 b0 b1 b2 b3).toNat = b0.toNat * 2 ^ 24 + b1.toNat * 2 ^ 16 + b2.toNat * 2 ^ 8 + b3.toNat) ∧
  (∀ w : Word, be32Bytes w = [w.extractLsb' 24 8, w.extractLsb' 16 8, w.extractLsb' 8 8, w.extractLsb' 0 8]) ∧
  (∀ b0 b1 b2 b3, be32Bytes (be32 b0 b1 b2 b3) = [b0, b1, b2, b3]) ∧
  (∀ d : Doubleword, (be64Bytes d).length = 8 ∧
    ∀ k, k < 8 → (be64Bytes d).getD k 0 = d.extractLsb' (56 - 8 * k) 8)

/-- R60: digest byte 4i + j is H[i][31 - 8j : 24 - 8j], and DIGESTi reads the whole word H[i]. -/
def Obligations.DigestByteOrder : Prop :=
  (∀ h : Hash, (digestBytes h).length = 32) ∧
  (∀ (h : Hash) (i : Nat) (hi : i < 8) (j : Nat), j < 4 →
    (digestBytes h).getD (4 * i + j) 0 = h[i].extractLsb' (24 - 8 * j) 8) ∧
  (∀ (i : BitVec 3) (s : State), s.state = .done → s.err = false →
    exec (.rdDigest i) s = .next { s with response := .okRead (s.h[i.toNat]'i.isLt) })

/-- R61: the lanes of DATA in stream order; lanes k >= N are ignored; a word fed by an UPDATE 4 at a block-word boundary becomes
that schedule word unchanged. -/
def Obligations.DataLaneOrder : Prop :=
  (∀ (n : BitVec 3) (d : Word), n.toNat ≤ 4 → (lanes n d).length = n.toNat ∧
    ∀ k, k < n.toNat → (lanes n d).getD k 0 = d.extractLsb' (24 - 8 * k) 8) ∧
  (∀ (n : BitVec 3) (s : State) (d : Word), n.toNat ≤ 4 →
    (∀ k, k < n.toNat → d.extractLsb' (24 - 8 * k) 8 = s.data.extractLsb' (24 - 8 * k) 8) →
    ∀ t, exec (.update n) s = .next t → exec (.update n) { s with data := d } = .next { t with data := d }) ∧
  (∀ (s t : State) (j : Fin 16), s.err = false → s.state = .active → s.total.toNat + 4 ≤ 2 ^ 61 - 1 →
    s.bufLen.toNat = 4 * j.val → exec (.update 4) s = .next t → blockWord t.buf j = s.data)

/-! ### Several engines -/

/-- R218: an access on a platform changes at most the engine whose window holds its address, and that one as if it were alone. -/
def Obligations.EnginesShareNothing : Prop :=
  ∀ a es es', platformAccess a es = some es' →
    es'.length = es.length ∧
    ∃ k off, locate (accessAddr a) es = some (k, off) ∧
      (∀ j, j ≠ k → es'[j]? = es[j]?) ∧
      (∀ g, es[k]? = some g → ∃ t, serveRequest (requestAt off a) g.engine = .next t ∧
        es'[k]? = some { g with engine := t })

/-- The address decode: at a well-formed platform, offset `off` of engine k's window reaches register offset `off` of engine k,
and an address in no window reaches no engine (20_memory.md R50, R54). -/
def Obligations.AddressDecode : Prop :=
  (∀ es : List Engine, platformWellFormed es = true → ∀ k g, es[k]? = some g → ∀ off : BitVec 6,
    locate (g.base + off.toNat) es = some (k, off)) ∧
  (∀ es addr, (∀ g ∈ es, addr < g.base ∨ g.base + 0x40 ≤ addr) → locate addr es = none)
end

