-- ==== Sys2Proof/Laws/Compression.lean ====
section
/-! SUPPORT. The compression and the block sequences it runs over, said once. -/

namespace Sys2Proof.Machine

/-- What Compress is (R130). -/
theorem compress_eq (hin : Hash) (blk : Block) :
    compress hin blk = addWorking hin (runRounds (loadWorking hin) (schedule blk)) := by
  unfold compress; rfl

theorem extendSchedule_length (n : Nat) (ws : List Word) : (extendSchedule n ws).length = ws.length + n := by
  induction n generalizing ws with
  | zero => rfl
  | succ n ih => simp [extendSchedule, ih]; omega

/-- The words that are there stay. -/
theorem extendSchedule_getD (n : Nat) (ws : List Word) {t : Nat} (ht : t < ws.length) :
    (extendSchedule n ws).getD t 0 = ws.getD t 0 := by
  induction n generalizing ws with
  | zero => rfl
  | succ n ih =>
    rw [extendSchedule, ih _ (by simp; omega)]
    simp [List.getD_eq_getElem?_getD, List.getElem?_append_left ht]

theorem blockAt_getElem (bs : List Byte) (k : Nat) {j : Nat} (hj : j < 64) :
    (blockAt bs k)[j] = bs.getD (64 * k + j) 0 := by
  simp [blockAt]

@[simp] theorem hashBlocks_zero (h : Hash) (bs : List Byte) : hashBlocks h bs 0 = h := rfl

theorem hashBlocks_succ (h : Hash) (bs : List Byte) (n : Nat) :
    hashBlocks h bs (n + 1) = compress (hashBlocks h bs n) (blockAt bs n) := by
  simp [hashBlocks, List.range_succ]

/-- The first n blocks depend on the first 64n bytes only. -/
theorem hashBlocks_congr (h : Hash) (bs cs : List Byte) (n : Nat)
    (hc : ∀ k, k < 64 * n → bs.getD k 0 = cs.getD k 0) : hashBlocks h bs n = hashBlocks h cs n := by
  induction n with
  | zero => rw [hashBlocks_zero, hashBlocks_zero]
  | succ n ih =>
    have hblk : blockAt bs n = blockAt cs n := by
      apply Vector.ext
      intro j hj
      rw [blockAt_getElem _ _ hj, blockAt_getElem _ _ hj]
      exact hc _ (by omega)
    rw [hashBlocks_succ, hashBlocks_succ, ih (fun k hk => hc k (by omega)), hblk]

/-- The zero count: the least number of zeros that brings the length to 56 mod 64 (R105). -/
theorem padZeros_mod (len : Nat) : (len + 1 + padZeros len) % 64 = 56 ∧ padZeros len < 64 := by
  unfold padZeros; omega

theorem padMessage_length (m : List Byte) : (padMessage m).length = m.length + 1 + padZeros m.length + 8 := by
  simp [padMessage, be64Bytes]; omega

/-- Byte k of the padded message. -/
theorem padMessage_getD (m : List Byte) (k : Nat) :
    (padMessage m).getD k 0 =
      if k < m.length then m.getD k 0
      else if k = m.length then 0x80
      else if k < m.length + 1 + padZeros m.length then 0
      else (be64Bytes (BitVec.ofNat 64 (8 * m.length))).getD (k - (m.length + 1 + padZeros m.length)) 0 := by
  unfold padMessage
  simp only [List.getD_eq_getElem?_getD, List.getElem?_append, List.length_append, List.length_replicate,
    List.length_singleton]
  split_ifs with h1 h2 h3 <;> first | omega | rfl | skip
  · have : k - m.length = 0 := by omega
    simp [this]
  · rw [List.getElem?_replicate]; split <;> rfl

end Sys2Proof.Machine
end

