-- ==== Sys2Proof/Laws/Decode.lean ====
section
/-! SUPPORT. What the decoders answer, said once: the fields of a descriptor and of a command word, and the requests that are
admitted. -/

namespace Sys2Proof

@[simp] theorem descriptorOffset_read (off : BitVec 6) : descriptorOffset (0#1 ++ off) = off := by
  revert off; decide
@[simp] theorem descriptorOffset_write (off : BitVec 6) : descriptorOffset (1#1 ++ off) = off := by
  revert off; decide
@[simp] theorem descriptorIsWrite_read (off : BitVec 6) : descriptorIsWrite (0#1 ++ off) = false := by
  revert off; decide
@[simp] theorem descriptorIsWrite_write (off : BitVec 6) : descriptorIsWrite (1#1 ++ off) = true := by
  revert off; decide

/-- The one request that is a CMD write and the one that is a DATA write; no other write is admitted (R51, R78). -/
theorem decodeRequest_write_ok {width : Nat} {off : BitVec 6} {v : Word} {i : Instr}
    (h : decodeRequest (.write width off v) = .ok i) :
    width = 32 ∧ ((off = 0x00 ∧ i = .wrCmd v) ∨ (off = 0x04 ∧ i = .wrData v)) := by
  simp only [decodeRequest, decodeAccess, descriptorOffset_write, descriptorIsWrite_write, Config.accessBits,
    if_true] at h
  split at h
  · cases h
  · refine ⟨by omega, ?_⟩
    split at h
    · cases h
    · unfold decodeWrite at h
      split at h
      · exact .inl ⟨‹_›, by cases h; rfl⟩
      · split at h
        · exact .inr ⟨‹_›, by cases h; rfl⟩
        · split at h <;> cases h

/-- The seven kinds of admitted read, by offset (R51, R78). -/
def admittedRead (off : BitVec 6) (i : Instr) : Prop :=
  (off = 0x04 ∧ i = .rdData) ∨ (off = 0x08 ∧ i = .rdStatus) ∨ (off = 0x10 ∧ i = .rdLenLo) ∨
    (off = 0x14 ∧ i = .rdLenHi) ∨ (0x20 ≤ off.toNat ∧ i = .rdDigest (off.extractLsb' 2 3))

theorem decodeAccess_read_table : ∀ off : BitVec 6,
    (match decodeAccess (0#1 ++ off) 0 with
    | .error _ => true
    | .ok .rdData => decide (off = 0x04)
    | .ok .rdStatus => decide (off = 0x08)
    | .ok .rdLenLo => decide (off = 0x10)
    | .ok .rdLenHi => decide (off = 0x14)
    | .ok (.rdDigest i) => decide (0x20 ≤ off.toNat ∧ i = off.extractLsb' 2 3)
    | .ok _ => false) = true := by decide

/-- The admitted reads (R51, R78). -/
theorem decodeRequest_read_ok {width : Nat} {off : BitVec 6} {i : Instr}
    (h : decodeRequest (.read width off) = .ok i) : width = 32 ∧ admittedRead off i := by
  by_cases hw : width = 32
  · refine ⟨hw, ?_⟩
    have ht := decodeAccess_read_table off
    simp only [decodeRequest, Config.accessBits, hw, ne_eq, not_true_eq_false, if_false] at h
    rw [h] at ht
    unfold admittedRead
    cases i <;> simp_all
  · simp [decodeRequest, Config.accessBits, hw] at h

/-- A request never decodes to a command as such: a command word reaches the DE as a write to CMD (R70, R79). -/
theorem decodeRequest_ne_command (r : BusRequest) (c : Command) : decodeRequest r ≠ .ok c.instr := by
  intro h
  cases r with
  | read width off =>
    rcases (decodeRequest_read_ok h).2 with h | h | h | h | h <;> cases c <;> cases h.2
  | write width off v =>
    rcases (decodeRequest_write_ok h).2 with h | h <;> cases c <;> cases h.2

end Sys2Proof
end

