-- ==== Sys2Proof/Laws/State.lean ====
section
/-! SUPPORT. For each named update of the state, what it does to each field, so that no later proof unfolds the update. -/

namespace Sys2Proof.Machine

variable (s : State)

@[simp] theorem respond_state (r : BusResponse) : (respond r s).state = s.state := rfl
@[simp] theorem respond_h (r : BusResponse) : (respond r s).h = s.h := rfl
@[simp] theorem respond_buf (r : BusResponse) : (respond r s).buf = s.buf := rfl
@[simp] theorem respond_bufLen (r : BusResponse) : (respond r s).bufLen = s.bufLen := rfl
@[simp] theorem respond_total (r : BusResponse) : (respond r s).total = s.total := rfl
@[simp] theorem respond_err (r : BusResponse) : (respond r s).err = s.err := rfl
@[simp] theorem respond_cause (r : BusResponse) : (respond r s).cause = s.cause := rfl
@[simp] theorem respond_data (r : BusResponse) : (respond r s).data = s.data := rfl
@[simp] theorem respond_faulted (r : BusResponse) : (respond r s).faulted = s.faulted := rfl
@[simp] theorem respond_pending (r : BusResponse) : (respond r s).pending = s.pending := rfl
@[simp] theorem respond_response (r : BusResponse) : (respond r s).response = r := rfl

@[simp] theorem raiseEngineError_state (c : Cause) : (raiseEngineError c s).state = s.state := rfl
@[simp] theorem raiseEngineError_h (c : Cause) : (raiseEngineError c s).h = s.h := rfl
@[simp] theorem raiseEngineError_buf (c : Cause) : (raiseEngineError c s).buf = s.buf := rfl
@[simp] theorem raiseEngineError_bufLen (c : Cause) : (raiseEngineError c s).bufLen = s.bufLen := rfl
@[simp] theorem raiseEngineError_total (c : Cause) : (raiseEngineError c s).total = s.total := rfl
@[simp] theorem raiseEngineError_err (c : Cause) : (raiseEngineError c s).err = true := rfl
@[simp] theorem raiseEngineError_cause (c : Cause) : (raiseEngineError c s).cause = c := rfl
@[simp] theorem raiseEngineError_data (c : Cause) : (raiseEngineError c s).data = s.data := rfl
@[simp] theorem raiseEngineError_faulted (c : Cause) : (raiseEngineError c s).faulted = true := rfl
@[simp] theorem raiseEngineError_pending (c : Cause) : (raiseEngineError c s).pending = s.pending := rfl
@[simp] theorem raiseEngineError_response (c : Cause) : (raiseEngineError c s).response = s.response := rfl

@[simp] theorem raiseBusError_state : (raiseBusError s).state = s.state := rfl
@[simp] theorem raiseBusError_h : (raiseBusError s).h = s.h := rfl
@[simp] theorem raiseBusError_buf : (raiseBusError s).buf = s.buf := rfl
@[simp] theorem raiseBusError_bufLen : (raiseBusError s).bufLen = s.bufLen := rfl
@[simp] theorem raiseBusError_total : (raiseBusError s).total = s.total := rfl
@[simp] theorem raiseBusError_err : (raiseBusError s).err = s.err := rfl
@[simp] theorem raiseBusError_cause : (raiseBusError s).cause = s.cause := rfl
@[simp] theorem raiseBusError_data : (raiseBusError s).data = s.data := rfl
@[simp] theorem raiseBusError_faulted : (raiseBusError s).faulted = true := rfl
@[simp] theorem raiseBusError_pending : (raiseBusError s).pending = s.pending := rfl
@[simp] theorem raiseBusError_response : (raiseBusError s).response = .busErr := rfl

@[simp] theorem resetEngine_state : (resetEngine s).state = .idle := rfl
@[simp] theorem resetEngine_h : (resetEngine s).h = State.reset.h := rfl
@[simp] theorem resetEngine_buf : (resetEngine s).buf = State.reset.buf := rfl
@[simp] theorem resetEngine_bufLen : (resetEngine s).bufLen = 0 := rfl
@[simp] theorem resetEngine_total : (resetEngine s).total = 0 := rfl
@[simp] theorem resetEngine_err : (resetEngine s).err = false := rfl
@[simp] theorem resetEngine_cause : (resetEngine s).cause = .none := rfl
@[simp] theorem resetEngine_data : (resetEngine s).data = 0 := rfl
@[simp] theorem resetEngine_faulted : (resetEngine s).faulted = s.faulted := rfl
@[simp] theorem resetEngine_pending : (resetEngine s).pending = s.pending := rfl
@[simp] theorem resetEngine_response : (resetEngine s).response = .noAccess := rfl

@[simp] theorem compressBlock_state (blk : Block) : (compressBlock blk s).state = s.state := rfl
@[simp] theorem compressBlock_h (blk : Block) : (compressBlock blk s).h = compress s.h blk := rfl
@[simp] theorem compressBlock_buf (blk : Block) : (compressBlock blk s).buf = blk := rfl
@[simp] theorem compressBlock_bufLen (blk : Block) : (compressBlock blk s).bufLen = s.bufLen := rfl
@[simp] theorem compressBlock_total (blk : Block) : (compressBlock blk s).total = s.total := rfl
@[simp] theorem compressBlock_err (blk : Block) : (compressBlock blk s).err = s.err := rfl
@[simp] theorem compressBlock_cause (blk : Block) : (compressBlock blk s).cause = s.cause := rfl
@[simp] theorem compressBlock_data (blk : Block) : (compressBlock blk s).data = s.data := rfl
@[simp] theorem compressBlock_faulted (blk : Block) : (compressBlock blk s).faulted = s.faulted := rfl
@[simp] theorem compressBlock_pending (blk : Block) : (compressBlock blk s).pending = s.pending := rfl
@[simp] theorem compressBlock_response (blk : Block) : (compressBlock blk s).response = s.response := rfl

@[simp] theorem doStart_state : (doStart s).state = .active := rfl
@[simp] theorem doStart_h : (doStart s).h = initialHash := rfl
@[simp] theorem doStart_buf : (doStart s).buf = s.buf := rfl
@[simp] theorem doStart_bufLen : (doStart s).bufLen = 0 := rfl
@[simp] theorem doStart_total : (doStart s).total = 0 := rfl
@[simp] theorem doStart_err : (doStart s).err = s.err := rfl
@[simp] theorem doStart_cause : (doStart s).cause = s.cause := rfl
@[simp] theorem doStart_data : (doStart s).data = s.data := rfl
@[simp] theorem doStart_faulted : (doStart s).faulted = s.faulted := rfl
@[simp] theorem doStart_pending : (doStart s).pending = s.pending := rfl
@[simp] theorem doStart_response : (doStart s).response = s.response := rfl

end Sys2Proof.Machine
end

