-- ==== Sys2Proof/Laws/Ops.lean ====
section
/-! SUPPORT. What each shared operation can do, said once: the bytes of the block buffer, absorb, padding, commands. -/

namespace Sys2Proof.Machine

/-! ### Bytes of a block -/

theorem bufByte_of_lt (s : State) {a : Nat} (h : a < 64) : bufByte s a = s.buf[a] := by
  simp [bufByte, h]

theorem bufByte_of_ge (s : State) {a : Nat} (h : 64 ≤ a) : bufByte s a = 0 := by
  simp [bufByte, Nat.not_lt.mpr h]

/-- Two states whose buffers agree byte by byte have the same buffer. -/
theorem buf_ext {s t : State} (h : ∀ a, a < 64 → bufByte s a = bufByte t a) : s.buf = t.buf := by
  apply Vector.ext
  intro a ha
  simpa [bufByte_of_lt, ha] using h a ha

theorem zeroFill_getElem (lo hi : Nat) (blk : Block) {k : Nat} (hk : k < 64) :
    (zeroFill lo hi blk)[k] = if lo ≤ k ∧ k ≤ hi then 0 else blk[k] := by
  simp [zeroFill]

theorem putLength_getElem (lbits : Doubleword) (blk : Block) {k : Nat} (hk : k < 64) :
    (putLength lbits blk)[k] = if 56 ≤ k then (be64Bytes lbits).getD (k - 56) 0 else blk[k] := by
  simp [putLength]

theorem lengthBlock_getElem (p : Nat) (lbits : Doubleword) (blk : Block) {k : Nat} (hk : k < 64) :
    (lengthBlock p lbits blk)[k] =
      if 56 ≤ k then (be64Bytes lbits).getD (k - 56) 0 else if p ≤ k then 0 else blk[k] := by
  simp only [lengthBlock, putLength_getElem _ _ hk, zeroFill_getElem _ _ _ hk]
  split
  · rfl
  · split <;> split <;> first | rfl | omega

theorem markedBlock_getElem (s : State) {k : Nat} (hk : k < 64) :
    (markedBlock s)[k] = if k = s.bufLen.toNat then 0x80 else s.buf[k] := by
  simp only [markedBlock, Vector.getElem_set]
  split <;> split <;> first | rfl | omega

/-! ### Absorb (R103) -/

section Absorb
variable (b : Byte) (bs : List Byte) (s : State)

@[simp] theorem absorb_state : (absorb b s).state = s.state := by unfold absorb; dsimp only; split <;> rfl
@[simp] theorem absorb_total : (absorb b s).total = s.total := by unfold absorb; dsimp only; split <;> rfl
@[simp] theorem absorb_err : (absorb b s).err = s.err := by unfold absorb; dsimp only; split <;> rfl
@[simp] theorem absorb_cause : (absorb b s).cause = s.cause := by unfold absorb; dsimp only; split <;> rfl
@[simp] theorem absorb_data : (absorb b s).data = s.data := by unfold absorb; dsimp only; split <;> rfl
@[simp] theorem absorb_faulted : (absorb b s).faulted = s.faulted := by unfold absorb; dsimp only; split <;> rfl
@[simp] theorem absorb_pending : (absorb b s).pending = s.pending := by unfold absorb; dsimp only; split <;> rfl
@[simp] theorem absorb_response : (absorb b s).response = s.response := by unfold absorb; dsimp only; split <;> rfl

/-- BUFLEN counts up and comes back to 0 at the 64th byte. -/
theorem absorb_bufLen : (absorb b s).bufLen.toNat = (s.bufLen.toNat + 1) % 64 := by
  unfold absorb
  dsimp only
  split <;> simp [*]

theorem absorb_buf : (absorb b s).buf = s.buf.set s.bufLen.toNat b s.bufLen.isLt := by
  unfold absorb; dsimp only; split <;> rfl

/-- H changes exactly when the block is full, by compressing it. -/
theorem absorb_h : (absorb b s).h = if s.bufLen.toNat = 63 then compress s.h (absorb b s).buf else s.h := by
  rw [absorb_buf]; unfold absorb; dsimp only; split <;> rfl

/-- Absorb stores its byte at BUF[BUFLEN] and nowhere else. -/
theorem absorb_bufByte (a : Nat) : bufByte (absorb b s) a = if a = s.bufLen.toNat then b else bufByte s a := by
  have := s.bufLen.isLt
  by_cases ha : a < 64
  · simp only [bufByte_of_lt _ ha, absorb_buf, Vector.getElem_set]
    split <;> split <;> first | rfl | omega
  · rw [bufByte_of_ge _ (by omega), bufByte_of_ge _ (by omega), if_neg (by omega)]

@[simp] theorem absorbAll_nil : absorbAll [] s = s := rfl
@[simp] theorem absorbAll_cons : absorbAll (b :: bs) s = absorbAll bs (absorb b s) := rfl

theorem absorbAll_append (cs : List Byte) : absorbAll (bs ++ cs) s = absorbAll cs (absorbAll bs s) := by
  simp [absorbAll]

@[simp] theorem absorbAll_state : (absorbAll bs s).state = s.state := by
  induction bs generalizing s <;> simp [*]
@[simp] theorem absorbAll_total : (absorbAll bs s).total = s.total := by
  induction bs generalizing s <;> simp [*]
@[simp] theorem absorbAll_err : (absorbAll bs s).err = s.err := by
  induction bs generalizing s <;> simp [*]
@[simp] theorem absorbAll_cause : (absorbAll bs s).cause = s.cause := by
  induction bs generalizing s <;> simp [*]
@[simp] theorem absorbAll_data : (absorbAll bs s).data = s.data := by
  induction bs generalizing s <;> simp [*]
@[simp] theorem absorbAll_faulted : (absorbAll bs s).faulted = s.faulted := by
  induction bs generalizing s <;> simp [*]
@[simp] theorem absorbAll_pending : (absorbAll bs s).pending = s.pending := by
  induction bs generalizing s <;> simp [*]
@[simp] theorem absorbAll_response : (absorbAll bs s).response = s.response := by
  induction bs generalizing s <;> simp [*]

/-- BUFLEN after several bytes. -/
theorem absorbAll_bufLen : (absorbAll bs s).bufLen.toNat = (s.bufLen.toNat + bs.length) % 64 := by
  induction bs generalizing s with
  | nil => simpa using (Nat.mod_eq_of_lt s.bufLen.isLt).symm
  | cons b bs ih => simp only [absorbAll_cons, ih, absorb_bufLen, List.length_cons]; omega

/-- Absorb does not look at the queue nor at the last answer. -/
theorem absorb_edges (p : List BusEvent) (r : BusResponse) :
    absorb b { s with pending := p, response := r } = { absorb b s with pending := p, response := r } := by
  unfold absorb; dsimp only; split <;> rfl

theorem absorbAll_edges (p : List BusEvent) (r : BusResponse) :
    absorbAll bs { s with pending := p, response := r } = { absorbAll bs s with pending := p, response := r } := by
  induction bs generalizing s with
  | nil => rfl
  | cons b bs ih => rw [absorbAll_cons, absorbAll_cons, absorb_edges, ih]

/-- A byte of BUF that no absorbed byte goes to is unchanged. -/
theorem absorbAll_bufByte_other (a : Nat) (h : ∀ k, k < bs.length → a ≠ (s.bufLen.toNat + k) % 64) :
    bufByte (absorbAll bs s) a = bufByte s a := by
  induction bs generalizing s with
  | nil => rfl
  | cons b bs ih =>
    have hb := s.bufLen.isLt
    have h0 := h 0 (by simp)
    rw [absorbAll_cons, ih]
    · rw [absorb_bufByte, if_neg]; omega
    · intro k hk
      have := h (k + 1) (by simpa using hk)
      rw [absorb_bufLen]; omega

/-- Byte k of at most 64 absorbed bytes stands at BUF[(BUFLEN + k) mod 64]. -/
theorem absorbAll_bufByte_stored (hl : bs.length ≤ 64) (k : Nat) (hk : k < bs.length) :
    bufByte (absorbAll bs s) ((s.bufLen.toNat + k) % 64) = bs[k] := by
  induction bs generalizing s k with
  | nil => simp at hk
  | cons b bs ih =>
    have hb := s.bufLen.isLt
    simp only [List.length_cons] at hl hk
    rw [absorbAll_cons]
    cases k with
    | zero =>
      rw [absorbAll_bufByte_other]
      · rw [absorb_bufByte, if_pos]
        · rfl
        · omega
      · intro j hj; rw [absorb_bufLen]; omega
    | succ k =>
      have := ih (absorb b s) (by omega) k (by omega)
      rw [absorb_bufLen] at this
      simp only [List.getElem_cons_succ]
      rw [← this]; congr 1; omega

/-- H does not change before the 64th byte. -/
theorem absorbAll_h_short (h : s.bufLen.toNat + bs.length < 64) : (absorbAll bs s).h = s.h := by
  induction bs generalizing s with
  | nil => rfl
  | cons b bs ih =>
    simp only [List.length_cons] at h
    rw [absorbAll_cons, ih, absorb_h, if_neg (by omega)]
    rw [absorb_bufLen]; omega

end Absorb

/-! ### Padding (R104) and commands (R100) -/

section Commands
variable (s : State)

@[simp] theorem padAndCompress_state : (padAndCompress s).state = s.state := by
  unfold padAndCompress; dsimp only; split <;> rfl
@[simp] theorem padAndCompress_total : (padAndCompress s).total = s.total := by
  unfold padAndCompress; dsimp only; split <;> rfl
@[simp] theorem padAndCompress_err : (padAndCompress s).err = s.err := by
  unfold padAndCompress; dsimp only; split <;> rfl
@[simp] theorem padAndCompress_cause : (padAndCompress s).cause = s.cause := by
  unfold padAndCompress; dsimp only; split <;> rfl
@[simp] theorem padAndCompress_data : (padAndCompress s).data = s.data := by
  unfold padAndCompress; dsimp only; split <;> rfl
@[simp] theorem padAndCompress_faulted : (padAndCompress s).faulted = s.faulted := by
  unfold padAndCompress; dsimp only; split <;> rfl
@[simp] theorem padAndCompress_pending : (padAndCompress s).pending = s.pending := by
  unfold padAndCompress; dsimp only; split <;> rfl
@[simp] theorem padAndCompress_response : (padAndCompress s).response = s.response := by
  unfold padAndCompress; dsimp only; split <;> rfl

theorem lanes_length (n : BitVec 3) (d : Word) : (lanes n d).length = n.toNat := by simp [lanes]

/-- Everything UPDATE n can do. -/
theorem doUpdate_cases (n : BitVec 3) :
    (s.state ≠ .active ∧ doUpdate n s = raiseEngineError .updateState s) ∨
    (s.state = .active ∧ Config.maxLen < s.total.toNat + n.toNat ∧
      doUpdate n s = raiseEngineError .lengthOverflow s) ∨
    (s.state = .active ∧ s.total.toNat + n.toNat ≤ Config.maxLen ∧
      doUpdate n s = absorbAll (lanes n s.data) { s with total := s.total + n.zeroExtend 64 }) := by
  unfold doUpdate
  by_cases ha : s.state = .active
  · by_cases hl : Config.maxLen < s.total.toNat + n.toNat
    · exact .inr (.inl ⟨ha, hl, by simp [ha, hl]⟩)
    · exact .inr (.inr ⟨ha, by omega, by simp [ha, hl]⟩)
  · exact .inl ⟨ha, by simp [ha]⟩

/-- Everything FINISH can do. -/
theorem doFinish_cases :
    (s.state ≠ .active ∧ doFinish s = raiseEngineError .finishState s) ∨
    (s.state = .active ∧ doFinish s = { padAndCompress s with bufLen := 0, state := .done }) := by
  unfold doFinish
  by_cases ha : s.state = .active
  · exact .inr ⟨ha, by simp [ha]⟩
  · exact .inl ⟨ha, by simp [ha]⟩

/-- Everything a command word can do, by what it decodes to. -/
theorem issue_cases (c : Except Reject Command) :
    (s.err = true ∧ issue c s = s) ∨
    (s.err = false ∧ (∃ r, c = .error r) ∧ issue c s = raiseEngineError .illegalCmd s) ∨
    (s.err = false ∧ ∃ k, c = .ok k ∧ issue c s = doCommand k s) := by
  unfold issue
  cases he : s.err <;> cases c <;> simp

/-- A command does not look at the queue nor at the last answer. -/
theorem issue_edges (c : Except Reject Command) (p : List BusEvent) (r : BusResponse) :
    issue c { s with pending := p, response := r } = { issue c s with pending := p, response := r } := by
  unfold issue
  dsimp only
  split
  · rfl
  · cases c with
    | error e => rfl
    | ok c =>
      cases c with
      | start => rfl
      | finish =>
        simp only [doCommand, doFinish]
        split
        · rfl
        · simp only [padAndCompress, markedBlock]; split <;> rfl
      | update n =>
        simp only [doCommand, doUpdate]
        split
        · rfl
        · split
          · rfl
          · exact absorbAll_edges _ { s with total := s.total + n.zeroExtend 64 } _ _

/-- So a CMD write answers the same, with the queue it found. -/
theorem completeCmd_edges (c : Except Reject Command) (p : List BusEvent) (r : BusResponse) :
    completeCmd c { s with pending := p, response := r } = { completeCmd c s with pending := p } := by
  unfold completeCmd
  rw [issue_edges]; rfl

@[simp] theorem completeCmd_pending (c : Except Reject Command) : (completeCmd c s).pending = s.pending := by
  have h := congrArg State.pending (completeCmd_edges s c s.pending s.response)
  exact h

@[simp] theorem completeCmd_response (c : Except Reject Command) : (completeCmd c s).response = .okWrite := rfl

theorem completeCmd_forgets_response (c : Except Reject Command) (r : BusResponse) :
    completeCmd c { s with response := r } = completeCmd c s := by
  have h := completeCmd_edges s c s.pending r
  have hp := completeCmd_pending s c
  generalize completeCmd c s = u at h hp
  rw [h, ← hp]

/-- TOTAL after a successful UPDATE, as a number: the sum does not wrap. -/
theorem total_add (n : BitVec 3) (h : s.total.toNat + n.toNat ≤ Config.maxLen) :
    (s.total + n.zeroExtend 64).toNat = s.total.toNat + n.toNat := by
  have := n.isLt
  simp only [Config.maxLen] at h
  simp only [BitVec.toNat_add, BitVec.toNat_setWidth]
  omega

end Commands

end Sys2Proof.Machine
end

