-- ==== Sys2Proof/Laws/PerInstr.lean ====
section
/-! SUPPORT. What holds of every instruction as syntax, one lemma for each: the form in which the host puts it on the bus. -/

namespace Sys2Proof.Laws.BusForm

/-- The encoded form of `i` is canonical, and the bus request that presents it asks for `i` itself or, where `i` is a command,
for the CMD write of its word (30_encoding.md R70, R78, R79). -/
def Statement (i : Instr) : Prop :=
  (encode i).canonical = encode i ∧
  (decodeRequest (encode i).request = .ok i ∨
    ∃ c : Command, i = c.instr ∧ decodeRequest (encode i).request = .ok (.wrCmd (encodeCmd c)))

theorem start : Statement .start := ⟨rfl, .inr ⟨.start, rfl, by decide⟩⟩

theorem update (n : BitVec 3) : Statement (.update n) :=
  ⟨rfl, .inr ⟨.update n, rfl, by revert n; decide⟩⟩

theorem finish : Statement .finish := ⟨rfl, .inr ⟨.finish, rfl, by decide⟩⟩

theorem wrCmd (v : Word) : Statement (.wrCmd v) := ⟨rfl, .inl rfl⟩

theorem wrData (v : Word) : Statement (.wrData v) := ⟨rfl, .inl rfl⟩

theorem rdData : Statement .rdData := ⟨rfl, .inl (by decide)⟩

theorem rdStatus : Statement .rdStatus := ⟨rfl, .inl (by decide)⟩

theorem rdLenLo : Statement .rdLenLo := ⟨rfl, .inl (by decide)⟩

theorem rdLenHi : Statement .rdLenHi := ⟨rfl, .inl (by decide)⟩

theorem rdDigest (i : BitVec 3) : Statement (.rdDigest i) := by
  refine ⟨?_, .inl ?_⟩ <;> (revert i; decide)

end Sys2Proof.Laws.BusForm
end

