-- ==== Sys2Proof/Laws/Platform.lean ====
section
/-! SUPPORT. The platform, said once: where a window lies, when a platform is well formed, and that serving an event keeps
the engines' number and bases (00_scope.md R8; 60_exceptions.md R218). -/

namespace Sys2Proof.Machine

theorem windowOffset_eq (base addr : Nat) :
    windowOffset base addr =
      if base ≤ addr ∧ addr < base + 0x40 then some (BitVec.ofNat 6 (addr - base)) else none := rfl

theorem platformWellFormed_iff (es : List Engine) :
    platformWellFormed es = true ↔
      1 ≤ es.length ∧ (∀ g ∈ es, g.base % 0x40 = 0) ∧ (es.map Engine.base).Nodup := by
  rw [platformWellFormed, Bool.and_eq_true, Bool.and_eq_true, List.all_eq_true, decide_eq_true_eq, decide_eq_true_eq,
    and_assoc]
  exact and_congr_right fun _ => and_congr_left fun _ => forall₂_congr fun _ _ => decide_eq_true_iff

@[simp] theorem serveAt_length (k : Nat) (e : BusEvent) (es : List Engine) : (serveAt k e es).length = es.length := by
  simp [serveAt]

@[simp] theorem serveAt_bases (k : Nat) (e : BusEvent) (es : List Engine) :
    (serveAt k e es).map Engine.base = es.map Engine.base := by
  unfold serveAt
  induction es generalizing k with
  | nil => simp
  | cons g es ih => cases k <;> simp [List.modify_succ_cons, ih]

/-- Whether a platform is well formed depends on its bases only, which no event changes. -/
theorem serveAt_wellFormed {k : Nat} {e : BusEvent} {es : List Engine} (h : platformWellFormed es = true) :
    platformWellFormed (serveAt k e es) = true := by
  rw [platformWellFormed_iff] at h ⊢
  have aligned : ∀ l : List Engine, (∀ g ∈ l, g.base % 0x40 = 0) ↔ ∀ b ∈ l.map Engine.base, b % 0x40 = 0 := by simp
  rw [aligned, serveAt_bases, serveAt_length, ← aligned]
  exact h

end Sys2Proof.Machine
end

