-- ==== Sys2Proof/Laws/Step.lean ====
section
/-! SUPPORT. What serving an event and a step can do, said once. -/

namespace Sys2Proof.Machine

/-- Every meaning, by name: what `exec` answers. -/
theorem exec_start (s : State) : exec .start s = .next (completeCmd (.ok .start) s) := rfl
theorem exec_update (n : BitVec 3) (s : State) : exec (.update n) s = .next (completeCmd (updateCommand n) s) := rfl
theorem exec_finish (s : State) : exec .finish s = .next (completeCmd (.ok .finish) s) := rfl
theorem exec_wrCmd (v : Word) (s : State) : exec (.wrCmd v) s = .next (completeCmd (decodeCmd v) s) := rfl
theorem exec_wrData (v : Word) (s : State) :
    exec (.wrData v) s = .next (respond .okWrite { s with data := v }) := rfl
theorem exec_rdData (s : State) : exec .rdData s = .next (respond (.okRead s.data) s) := rfl
theorem exec_rdStatus (s : State) : exec .rdStatus s = .next (respond (.okRead (statusWord s)) s) := rfl
theorem exec_rdLenLo (s : State) : exec .rdLenLo s = .next (respond (.okRead (lenLo s.total)) s) := rfl
theorem exec_rdLenHi (s : State) : exec .rdLenHi s = .next (respond (.okRead (lenHi s.total)) s) := rfl
theorem exec_rdDigest (i : BitVec 3) (s : State) :
    exec (.rdDigest i) s =
      .next (if digestReadable s then respond (.okRead (digestWord s.h i)) s else raiseBusError s) := by
  change execRdDigest i s = _
  unfold execRdDigest
  split <;> rfl

/-- Everything a host access can do: a command word, a DATA write, a read that is answered, a bus error. -/
theorem serveRequest_cases (r : BusRequest) (s : State) :
    (∃ w, decodeRequest r = .ok (.wrCmd w) ∧ serveRequest r s = .next (completeCmd (decodeCmd w) s)) ∨
    (∃ v, decodeRequest r = .ok (.wrData v) ∧ serveRequest r s = .next (respond .okWrite { s with data := v })) ∨
    (∃ v, serveRequest r s = .next (respond (.okRead v) s)) ∨
    serveRequest r s = .next (raiseBusError s) := by
  unfold serveRequest
  cases hd : decodeRequest r with
  | error e => exact .inr (.inr (.inr rfl))
  | ok i =>
    cases i with
    | start => exact absurd hd (decodeRequest_ne_command r .start)
    | update n => exact absurd hd (decodeRequest_ne_command r (.update n))
    | finish => exact absurd hd (decodeRequest_ne_command r .finish)
    | wrCmd w => exact .inl ⟨w, rfl, rfl⟩
    | wrData v => exact .inr (.inl ⟨v, rfl, rfl⟩)
    | rdData => exact .inr (.inr (.inl ⟨_, rfl⟩))
    | rdStatus => exact .inr (.inr (.inl ⟨_, rfl⟩))
    | rdLenLo => exact .inr (.inr (.inl ⟨_, rfl⟩))
    | rdLenHi => exact .inr (.inr (.inl ⟨_, rfl⟩))
    | rdDigest i =>
      simp only [exec_rdDigest]
      split
      · exact .inr (.inr (.inl ⟨_, rfl⟩))
      · exact .inr (.inr (.inr rfl))

theorem step_nil {s : State} (h : s.pending = []) : step s = .next s := by simp [step, h]

theorem step_access {s : State} {r : BusRequest} {rest : List BusEvent} (h : s.pending = .access r :: rest) :
    step s = serveRequest r { s with pending := rest } := by simp [step, h, serveEvent]

theorem step_reset {s : State} {rest : List BusEvent} (h : s.pending = .reset :: rest) :
    step s = .next (resetEngine { s with pending := rest }) := by simp [step, h, serveEvent]

end Sys2Proof.Machine
end

