-- ==== Sys2Proof/Laws/Safety.lean ====
section
/-! SUPPORT. Everything a CMD write and everything a step can do, in the terms claims use. -/

namespace Sys2Proof.Machine

/-- The count of a decoded UPDATE is at most 4 (30_encoding.md R73). -/
theorem decodeCmd_update_le {w : Word} {n : BitVec 3} (h : decodeCmd w = .ok (.update n)) : n.toNat ≤ 4 := by
  unfold decodeCmd at h
  split_ifs at h <;> cases h
  simpa [Config.maxUpdateBytes] using ‹_›

/-- Everything a CMD write can do: nothing while ERR = 1, one error entry, or a command that succeeds. -/
theorem completeCmd_cases (w : Word) (s : State) :
    (s.err = true ∧ completeCmd (decodeCmd w) s = respond .okWrite s) ∨
    (s.err = false ∧ ∃ c, c ≠ .none ∧ completeCmd (decodeCmd w) s = errorState c s) ∨
    (s.err = false ∧ ∃ k, decodeCmd w = .ok k ∧ commandSucceeds s k ∧
      completeCmd (decodeCmd w) s = respond .okWrite (doCommand k s)) := by
  unfold completeCmd
  rcases issue_cases s (decodeCmd w) with ⟨he, h⟩ | ⟨he, -, h⟩ | ⟨he, k, hk, h⟩ <;> rw [h]
  · exact .inl ⟨he, rfl⟩
  · exact .inr (.inl ⟨he, .illegalCmd, by decide, rfl⟩)
  · cases k with
    | start => exact .inr (.inr ⟨he, _, hk, trivial, rfl⟩)
    | update n =>
      rcases doUpdate_cases s n with h2 | h2 | h2
      · exact .inr (.inl ⟨he, .updateState, by decide, by rw [doCommand, h2.2]; rfl⟩)
      · exact .inr (.inl ⟨he, .lengthOverflow, by decide, by rw [doCommand, h2.2.2]; rfl⟩)
      · exact .inr (.inr ⟨he, _, hk, ⟨h2.1, decodeCmd_update_le hk, h2.2.1⟩, rfl⟩)
    | finish =>
      rcases doFinish_cases s with h2 | h2
      · exact .inr (.inl ⟨he, .finishState, by decide, by rw [doCommand, h2.2]; rfl⟩)
      · exact .inr (.inr ⟨he, _, hk, h2.1, rfl⟩)

/-- Everything a step can do: nothing, a reset, a CMD write, a DATA write, a read that is answered, a bus error. -/
theorem step_cases {s t : State} (h : step s = .next t) :
    (s.pending = [] ∧ t = s) ∨
    (∃ rest, s.pending = .reset :: rest ∧ t = resetEngine { s with pending := rest }) ∨
    (∃ w rest, s.pending = .access (.write 32 0x00 w) :: rest ∧
      t = completeCmd (decodeCmd w) { s with pending := rest }) ∨
    (∃ v rest, s.pending = .access (.write 32 0x04 v) :: rest ∧
      t = respond .okWrite { s with pending := rest, data := v }) ∨
    (∃ v r rest, s.pending = .access r :: rest ∧ t = respond (.okRead v) { s with pending := rest }) ∨
    (∃ r rest, s.pending = .access r :: rest ∧ t = raiseBusError { s with pending := rest }) := by
  cases hp : s.pending with
  | nil => rw [step_nil hp] at h; cases h; exact .inl ⟨rfl, rfl⟩
  | cons e rest =>
    cases e with
    | reset => rw [step_reset hp] at h; cases h; exact .inr (.inl ⟨rest, rfl, rfl⟩)
    | access r =>
      rw [step_access hp] at h
      rcases serveRequest_cases r { s with pending := rest } with ⟨w, hd, hs⟩ | ⟨v, hd, hs⟩ | ⟨v, hs⟩ | hs <;>
        rw [hs] at h <;> cases h
      · refine .inr (.inr (.inl ⟨w, rest, ?_, rfl⟩))
        cases r with
        | read width off => simpa [admittedRead] using (decodeRequest_read_ok hd).2
        | write width off v => obtain ⟨rfl, h | h⟩ := decodeRequest_write_ok hd <;> simp_all
      · refine .inr (.inr (.inr (.inl ⟨v, rest, ?_, rfl⟩)))
        cases r with
        | read width off => simpa [admittedRead] using (decodeRequest_read_ok hd).2
        | write width off v => obtain ⟨rfl, h | h⟩ := decodeRequest_write_ok hd <;> simp_all
      · exact .inr (.inr (.inr (.inr (.inl ⟨v, r, rest, rfl, rfl⟩))))
      · exact .inr (.inr (.inr (.inr (.inr ⟨r, rest, rfl, rfl⟩))))

end Sys2Proof.Machine
end

