-- ==== Sys2Proof/Tests/Slice0.lean ====
section
/-! SUPPORT. Tests, their expected values from spec/95_test_vectors.md (named V and P as there) and from the encodings of
spec/30_encoding.md, and for every statement with hypotheses a witness that meets them. -/

open Sys2Proof Sys2Proof.Machine

namespace Sys2Proof.Tests

/-- The outcome is a next state with the property. -/
def after (o : Host.Outcome State Fault Refusal) (p : State → Bool) : Bool :=
  match o with
  | .next t => p t
  | .fault _ => false
  | .refused _ => false

/-- ACTIVE with BUFLEN and the low bits of TOTAL equal to `k`, H = IV, and the given DATA. -/
def active (k : Nat) (d : Word) : State :=
  { State.reset with state := .active, h := initialHash, bufLen := BitVec.ofNat 6 k, total := BitVec.ofNat 64 k, data := d }

/-- ACTIVE at the length limit: TOTAL = 2^61 - 1, BUFLEN 63. -/
def atLimit (d : Word) : State := { active 63 d with total := 0x1FFFFFFFFFFFFFFF }

/-- ACTIVE with "abc" absorbed. -/
def abc : State := { active 3 0x61626300 with buf := Vector.ofFn fun k => [0x61, 0x62, 0x63].getD k.val 0xEE }

/-- DONE with some digest. -/
def done : State := { State.reset with state := .done, total := 3, h := #v[0xba7816bf, 1, 2, 3, 4, 5, 6, 0xf20015ad] }

/-- The error state after an UPDATE in DONE, STATUS 0x26. -/
def halted : State := { done with err := true, cause := .updateState, faulted := true }

def queued (s : State) (l : List BusEvent) : State := { s with pending := l }

def cmd (w : Word) : BusEvent := .access (.write 32 0x00 w)
def wrData (w : Word) : BusEvent := .access (.write 32 0x04 w)

/-! ### Well-formedness: the one check, N at most 4 (R71, R74) -/

theorem test_wellFormed_refuses_5 : Instr.wellFormed (.update 5) = false := by decide
theorem test_wellFormed_refuses_7 : Instr.wellFormed (.update 7) = false := by decide
theorem test_wellFormed_admits_4 : WellFormed (.update 4) := by decide

/-! ### Decoding: words written out bit by bit from the fields of R71 (RSV, N, OP) and R78 (dir, off) -/

theorem test_decode_start : decode (.command (0b0000000000000000000000000#25 ++ 0b000#3 ++ 0b0001#4)) = .ok .start := by decide
theorem test_decode_update :
    decode (.command (0b0000000000000000000000000#25 ++ 0b100#3 ++ 0b0010#4)) = .ok (.update 4) := by decide
theorem test_decode_finish : decode (.command (0b0000000000000000000000000#25 ++ 0b000#3 ++ 0b0011#4)) = .ok .finish := by decide
theorem test_decode_wrCmd : decode (.access (0b1#1 ++ 0b000000#6) 0xFFFFFFFF) = .ok (.wrCmd 0xFFFFFFFF) := by decide
theorem test_decode_wrData : decode (.access (0b1#1 ++ 0b000100#6) 0x61626300) = .ok (.wrData 0x61626300) := by decide
theorem test_decode_rdData : decode (.access (0b0#1 ++ 0b000100#6) 0) = .ok .rdData := by decide
theorem test_decode_rdStatus : decode (.access (0b0#1 ++ 0b001000#6) 0) = .ok .rdStatus := by decide
theorem test_decode_rdLenLo : decode (.access (0b0#1 ++ 0b010000#6) 0) = .ok .rdLenLo := by decide
theorem test_decode_rdLenHi : decode (.access (0b0#1 ++ 0b010100#6) 0) = .ok .rdLenHi := by decide
theorem test_decode_rdDigest : decode (.access (0b0#1 ++ 0b111100#6) 0) = .ok (.rdDigest 7) := by decide

/-- V30, the illegal rows. -/
theorem test_decode_illegal_words :
    ([0x00000000, 0x00000011, 0x00000052, 0x00000072, 0x00000013, 0x00000004, 0x0000000F, 0x00000081, 0x00000082,
      0x00000102, 0x80000001, 0xFFFFFFFF] : List Word).all (fun w => (decodeCmd w).toOption = none) = true := by decide

/-- V50 and R54, R55: accesses without a descriptor or with one that is not admitted, each rejected for its reason. -/
theorem test_decode_rejects_by_name :
    decodeRequest (.read 32 0x00) = .error .readOfCmd ∧ decodeRequest (.read 32 0x18) = .error .reservedOffset ∧
    decodeRequest (.write 32 0x20 0) = .error .writeOfReadOnly ∧ decodeRequest (.read 32 0x06) = .error .misaligned ∧
    decodeRequest (.write 16 0x04 0) = .error .badWidth ∧ decodeCmd 0x82 = .error .reservedBits ∧
    decodeCmd 0x0F = .error .unassignedOp ∧ decodeCmd 0x13 = .error .badCount := by decide

/-! ### One step each -/

/-- V40, row 1, by the fetch interface. -/
theorem test_start_from_reset :
    after (step (State.reset.withFetchWord 32 0x00000001)) (fun t => statusWord t = 0x00000001 && t.h = initialHash) = true := by
  decide
/-- V40, row 4: halted. -/
theorem test_start_halted : after (exec .start halted) (fun t => statusWord t = 0x00000026 && t.state = .done) = true := by
  decide
/-- V41, row 1. -/
theorem test_update_abc :
    after (exec (.update 3) (active 0 0x61626300)) (fun t => statusWord t = 0x00000301 && t.total = 3 &&
      bufByte t 0 = 0x61 && bufByte t 1 = 0x62 && bufByte t 2 = 0x63 && bufByte t 3 = 0) = true := by decide
/-- V41, at the limit: LENGTH_OVERFLOW absorbs nothing. -/
theorem test_update_overflow :
    after (exec (.update 1) (atLimit 0)) (fun t => statusWord t = 0x00003F45 && t.total = 0x1FFFFFFFFFFFFFFF) = true := by decide
/-- V42, "abc", and V2: H is the digest. The garbage behind the message in BUF does not matter. -/
theorem test_finish_abc :
    after (exec .finish abc) (fun t => statusWord t = 0x00000002 && t.h = #v[0xba7816bf, 0x8f01cfea, 0x414140de, 0x5dae2223,
      0xb00361a3, 0x96177a9c, 0xb410ff61, 0xf20015ad]) = true := by decide +kernel
/-- V42, at the limit: the second block ends ff ff ff ff ff ff ff f8. -/
theorem test_finish_at_limit :
    after (exec .finish (atLimit 0)) (fun t => statusWord t = 0x00000002 && bufByte t 0 = 0 && bufByte t 55 = 0 &&
      bufByte t 56 = 0xFF && bufByte t 62 = 0xFF && bufByte t 63 = 0xF8) = true := by decide +kernel
/-- V60, row 1: an illegal word in DONE. -/
theorem test_wrCmd_illegal_in_done : after (exec (.wrCmd 0x52) done) (fun t => statusWord t = 0x00000016) = true := by decide
/-- V60, row 5: ignored while ERR = 1. -/
theorem test_wrCmd_halted : after (exec (.wrCmd 0xFFFFFFFF) halted) (fun t => statusWord t = 0x00000026) = true := by decide
/-- V50: DATA is written in the error state too. -/
theorem test_wrData_halted :
    after (exec (.wrData 0x61626300) halted) (fun t => t.data = 0x61626300 && statusWord t = 0x00000026) = true := by decide
theorem test_rdData : after (exec .rdData abc) (fun t => t.response = .okRead 0x61626300) = true := by decide
/-- R164: after START and "abc" STATUS is 0x301. -/
theorem test_rdStatus : after (exec .rdStatus abc) (fun t => t.response = .okRead 0x00000301) = true := by decide
/-- V70. -/
theorem test_rdLenLo : after (exec .rdLenLo (atLimit 0)) (fun t => t.response = .okRead 0xFFFFFFFF) = true := by decide
/-- V70. -/
theorem test_rdLenHi : after (exec .rdLenHi (atLimit 0)) (fun t => t.response = .okRead 0x1FFFFFFF) = true := by decide
/-- V50: DIGEST7 in DONE, and the error response when ERR = 1. -/
theorem test_rdDigest : after (exec (.rdDigest 7) done) (fun t => t.response = .okRead 0xf20015ad) = true := by decide
theorem test_rdDigest_halted : after (exec (.rdDigest 0) halted) (fun t => t.response = .busErr && t.cause = .updateState) = true := by
  decide
/-- V61: reset clears the error, and the mark stays (R212). -/
theorem test_reset : after (step (queued halted [.reset])) (fun t => statusWord t = 0 && t.total = 0 && t.faulted) = true := by
  decide
/-- V50: a write of STATUS is a bus error that leaves the DE and marks the run. -/
theorem test_write_of_status :
    after (step (queued abc [.access (.write 32 0x08 0)])) (fun t => t.response = .busErr && statusWord t = 0x301 && t.faulted) =
      true := by decide

/-! ### The fetch interface, a word of each format -/

theorem test_fetch_update : decodeTableWord 32 0x42 = some (.update 4) := by decide
theorem test_fetch_wrData : decodeTableWord 8 0x44 = some (.wrData 0) := by decide
theorem test_fetch_wrData_value : decodeTableWord 40 0x6162630044 = some (.wrData 0x61626300) := by decide
theorem test_fetch_rdDigest :
    after (step (done.withFetchWord 8 0x3C)) (fun t => t.response = .okRead 0xf20015ad && t.pending = []) = true := by decide

/-! ### The compression (V10, V11, V13) -/

theorem test_rotr_shr : rotr 0x12345678 8 = 0x78123456 ∧ shr 0x12345678 8 = 0x00123456 ∧ rotr 0x80000000 31 = 1 := by decide
theorem test_sigmas :
    bigSigma0 0x12345678 = 0x66146474 ∧ bigSigma1 0x12345678 = 0x3561abda ∧ smallSigma0 0x12345678 = 0xe7fce6ee ∧
    smallSigma1 0x12345678 = 0xa1f78649 := by decide
theorem test_choose_majority :
    choose 0x510e527f 0x9b05688c 0x1f83d9ab = 0x1f85c98c ∧ majority 0x6a09e667 0xbb67ae85 0x3c6ef372 = 0x3a6fe667 := by decide
/-- V13, seq(64): every byte position counts. -/
theorem test_compress_seq64 :
    compress initialHash (Vector.ofFn fun k => BitVec.ofNat 8 k.val) = #v[0xfc99a2df, 0x88f42a7a, 0x7bb9d180, 0x33cdc6a2,
      0x0256755f, 0x9d5b9a50, 0x44a9cc31, 0x5abe84a7] := by decide +kernel

/-! ### Witnesses: for each statement, states and operands that meet its hypotheses -/

theorem witness_DecodeAndEncodeAgree :
    WellFormed (.update 4) ∧ WellFormed (.wrCmd 0x72) ∧ decode (.command 0x42) = .ok (.update 4) ∧
    decode (.access 0x3C 5) = .ok (.rdDigest 7) := by decide

theorem witness_IllegalWordsRaiseIllegalCmd :
    (abc).err = false ∧ IllegalWord 0x80000001 ∧ IllegalWord 0x00000004 ∧ IllegalWord 0x00000011 ∧ IllegalWord 0x00000013 ∧
    IllegalWord 0x00000052 := by
  refine ⟨rfl, ?_, ?_, ?_, ?_, ?_⟩ <;> (unfold IllegalWord; decide)

/-- Widths beside 32 at a word-aligned offset, offsets just off a word at width 32, and accesses that decode to nothing. -/
theorem witness_AdmittedDescriptors :
    ((31 : Nat) ≠ 32 ∧ (33 : Nat) ≠ 32 ∧ (0x04 : BitVec 6).extractLsb' 0 2 = 0#2) ∧
    ((0x01 : BitVec 6).extractLsb' 0 2 ≠ 0#2 ∧ (0x3F : BitVec 6).extractLsb' 0 2 ≠ 0#2) ∧
    (∀ i, decodeRequest (.read 32 0x0C) ≠ .ok i) ∧ (∀ i, decodeRequest (.write 8 0x04 0) ≠ .ok i) ∧
    (∀ i, decodeRequest (.read 32 0x3F) ≠ .ok i) := by
  refine ⟨by decide, by decide, fun i h => ?_, fun i h => ?_, fun i h => ?_⟩ <;> cases h

theorem witness_StepServesTheHeadEvent :
    decodeRequest (.read 32 0x3C) = .ok (.rdDigest 7) ∧ decodeRequest (.read 32 0x00) = .error .readOfCmd ∧
    (State.reset).pending = [] ∧ (queued done [.access (.read 32 0x3C)]).pending = [.access (.read 32 0x3C)] ∧
    (queued done [.reset]).pending = [.reset] := by decide

theorem witness_StepRunsTheEncodedInstruction :
    WellFormed (.update 4) ∧ (queued abc [cmd 0x42]).pending = .access (encode (.update 4)).request :: [] ∧
    WellFormed (.rdDigest 7) ∧ (queued abc [.access (.read 32 0x3C)]).pending = .access (encode (.rdDigest 7)).request :: [] := by
  decide

theorem witness_FetchedWordRunsItsInstruction :
    decodeTableWord 32 0x00000003 = some .finish ∧ decodeTableWord 8 0x08 = some .rdStatus := by decide

theorem witness_WrCmdExecutesTheWord :
    (halted).err = true ∧ (abc).err = false ∧ decodeCmd 0x52 = .error .badCount ∧ decodeCmd 0x42 = .ok (.update 4) := by decide

theorem witness_WrCmdCompletes :
    (abc).err = false ∧ decodeCmd 0x01 = .ok .start ∧ commandSucceeds abc .start ∧ decodeCmd 0x42 = .ok (.update 4) ∧
    commandSucceeds abc (.update 4) ∧ decodeCmd 0x03 = .ok .finish ∧ commandSucceeds abc .finish := by
  unfold commandSucceeds; decide

theorem witness_StartBeginsAComputation :
    (abc).err = false ∧ (done).err = false ∧ (∃ t, exec .start done = .next t) ∧ (∃ t, exec .start State.reset = .next t) :=
  ⟨by decide, by decide, ⟨_, rfl⟩, ⟨_, rfl⟩⟩

/-- The last bytes before the limit, and UPDATE 0 at the limit. -/
theorem witness_UpdateAbsorbsItsLanes :
    (let s : State := { active 59 0 with total := 0x1FFFFFFFFFFFFFFB }
     s.err = false ∧ s.state = .active ∧ (4 : BitVec 3).toNat ≤ 4 ∧ s.total.toNat + (4 : BitVec 3).toNat ≤ Config.maxLen) ∧
    (atLimit 0).err = false ∧ (atLimit 0).state = .active ∧ (atLimit 0).total.toNat ≤ Config.maxLen ∧
    Config.maxLen < (atLimit 0).total.toNat + (1 : BitVec 3).toNat ∧ (done).err = false ∧ (done).state ≠ .active := by decide

theorem witness_AbsorbStoresAndCompressesAtTheLastByte :
    (active 62 0).bufLen.toNat ≠ 63 ∧ (active 63 0).bufLen.toNat = 63 := by decide

/-- UPDATE 4 from BUFLEN 59 does not fill the block, from 60 it does, from 63 it goes on behind it. -/
theorem witness_UpdateRegistersAndBuffer :
    (∀ k ∈ [59, 60, 63], (active k 0).err = false ∧ (active k 0).state = .active ∧
      (active k 0).total.toNat + (4 : BitVec 3).toNat ≤ Config.maxLen ∧ ∃ t, exec (.update 4) (active k 0) = .next t) ∧
    (active 59 0).bufLen.toNat + (4 : BitVec 3).toNat < 64 ∧ 64 ≤ (active 60 0).bufLen.toNat + (4 : BitVec 3).toNat ∧
    (∃ blk : Block, ∀ (a : Nat) (ha : a < 64), blk[a] =
      if a < (active 60 0).bufLen.toNat then bufByte (active 60 0) a
      else (active 60 0).data.extractLsb' (24 - 8 * (a - (active 60 0).bufLen.toNat)) 8) := by
  refine ⟨?_, by decide, by decide, Vector.ofFn fun a => if a.val < (active 60 0).bufLen.toNat then bufByte (active 60 0) a.val
    else (active 60 0).data.extractLsb' (24 - 8 * (a.val - (active 60 0).bufLen.toNat)) 8, fun a ha => by simp⟩
  intro k hk
  simp only [List.mem_cons, List.not_mem_nil, or_false] at hk
  rcases hk with rfl | rfl | rfl <;> exact ⟨by decide, by decide, by decide, _, rfl⟩

theorem witness_FinishPadsAndCompresses :
    (∀ k ∈ [0, 55, 56, 63], (active k 0).err = false ∧ (active k 0).state = .active) ∧
    (done).err = false ∧ (done).state ≠ .active ∧ (active 55 0).bufLen.toNat ≤ 55 ∧ 56 ≤ (active 56 0).bufLen.toNat ∧
    (∃ first : Block, ∀ (a : Nat) (ha : a < 64), first[a] =
      if a < (active 63 0).bufLen.toNat then bufByte (active 63 0) a
      else if a = (active 63 0).bufLen.toNat then 0x80 else 0) :=
  ⟨by decide, by decide, by decide, by decide, by decide, Vector.ofFn fun a => if a.val < (active 63 0).bufLen.toNat then bufByte (active 63 0) a.val
    else if a.val = (active 63 0).bufLen.toNat then 0x80 else 0, fun a ha => by simp⟩

theorem witness_UpdateOutsideActiveIsAnError :
    (0 : BitVec 3).toNat ≤ 4 ∧ (4 : BitVec 3).toNat ≤ 4 ∧ (State.reset).err = false ∧ (State.reset).state = .idle ∧
    (done).err = false ∧ (done).state = .done := by decide

theorem witness_FinishOutsideActiveIsAnError :
    (State.reset).err = false ∧ (State.reset).state = .idle ∧ (done).err = false ∧ (done).state = .done := by decide

theorem witness_LengthOverflowIsRefused :
    (atLimit 0).err = false ∧ (1 : BitVec 3).toNat ≤ 4 ∧ (atLimit 0).state = .active ∧
    2 ^ 61 - 1 < (atLimit 0).total.toNat + (1 : BitVec 3).toNat ∧
    ((queued (atLimit 0) [cmd 0x12]).total.toNat ≤ 2 ^ 61 - 1 ∧ ∃ t, step (queued (atLimit 0) [cmd 0x12]) = .next t) :=
  ⟨by decide, by decide, by decide, by decide, by decide, _, rfl⟩

/-- One word for each clause; `exec (.wrCmd w) s` always answers a next state. -/
theorem witness_ErrorPriority :
    (∀ w s, ∃ t, exec (.wrCmd w) s = .next t) ∧ (halted).err = true ∧
    ((done).err = false ∧ IllegalWord 0x52) ∧
    (decodeCmd 0x12 = .ok (.update 1) ∧ (done).state ≠ .active) ∧
    (decodeCmd 0x03 = .ok .finish ∧ (State.reset).err = false ∧ (State.reset).state ≠ .active) ∧
    ((atLimit 0).err = false ∧ (atLimit 0).state = .active ∧ 2 ^ 61 - 1 < (atLimit 0).total.toNat + (1 : BitVec 3).toNat) ∧
    (decodeCmd 0x02 = .ok (.update 0) ∧ commandSucceeds (atLimit 0) (.update 0)) :=
  ⟨fun _ _ => ⟨_, rfl⟩, rfl, ⟨rfl, by unfold IllegalWord; decide⟩, by decide, by decide, by decide, by decide,
    by unfold commandSucceeds; decide⟩

theorem witness_ErrorEntryIsPrecise :
    ∃ t, (queued done [cmd 0x12]).err = false ∧ step (queued done [cmd 0x12]) = .next t ∧ t.err = true :=
  ⟨_, by decide, rfl, by decide⟩

theorem witness_HaltedEngine :
    (halted).err = true ∧ executesCommand .finish = true ∧ readsRegister .rdStatus = true ∧
    (∀ k, Instr.rdStatus ≠ .rdDigest k) := by decide

theorem witness_OnlyResetLeavesTheErrorState :
    ∃ t, (queued halted [.reset]).err = true ∧ step (queued halted [.reset]) = .next t ∧ t.err = false ∧
      (queued halted [.reset]).pending = .reset :: [] ∧ (4 : BitVec 3).toNat ≤ 4 :=
  ⟨_, by decide, rfl, by decide, rfl, by decide⟩

/-- Each clause of the list, and two accesses that are not on it. -/
theorem witness_BusErrorsAreTheListedAccesses :
    BusErrorListed abc (.read 16 0x04) ∧ BusErrorListed abc (.read 32 0x3F) ∧ BusErrorListed abc (.read 32 0x00) ∧
    BusErrorListed abc (.read 32 0x1C) ∧ BusErrorListed abc (.read 32 0x20) ∧ BusErrorListed halted (.read 32 0x3C) ∧
    BusErrorListed done (.write 32 0x20 0) ∧ BusErrorListed done (.write 32 0x08 0) ∧
    ¬ BusErrorListed done (.read 32 0x3C) ∧ ¬ BusErrorListed halted (.write 32 0x00 0) ∧
    ¬ BusErrorListed halted (.read 32 0x08) := by
  refine ⟨?_, ?_, ?_, ?_, ?_, ?_, ?_, ?_, ?_, ?_, ?_⟩ <;> (simp only [BusErrorListed]; decide)

theorem witness_BusErrorDoesNotHaltTheEngine :
    ∃ t, serveRequest (.read 32 0x20) abc = .next t ∧ t.response = .busErr ∧ executesCommand (.wrCmd 0x12) = true :=
  ⟨_, rfl, by decide, rfl⟩

theorem witness_FaultMarkIsSticky :
    (∃ t, (queued done [cmd 0x12]).err = false ∧ step (queued done [cmd 0x12]) = .next t ∧ t.err = true) ∧
    (∃ t, step (queued abc [.access (.read 32 0x20)]) = .next t ∧ t.response = .busErr) ∧
    (∃ t, (queued halted [.reset]).faulted = true ∧ Host.Core.run Sys2Proof.core 2 (queued halted [.reset]) = .next t) :=
  ⟨⟨_, by decide, rfl, by decide⟩, ⟨_, rfl, by decide⟩, ⟨_, by decide, rfl⟩⟩

theorem witness_WriteDataStoresTheWord : ∃ t, exec (.wrData 0x61626300) halted = .next t := ⟨_, rfl⟩

theorem witness_ReadDataReturnsData : ∃ t, exec (.update 4) (active 60 0x61626300) = .next t := ⟨_, rfl⟩

/-- TOTAL at the limit meets the bound on LEN_HI. -/
theorem witness_LengthHalves : (atLimit 0).total.toNat ≤ 2 ^ 61 - 1 := by decide

theorem witness_DigestReadsTheHash :
    (0x3C : BitVec 7) &&& 0x63 = 0x20 ∧ (done).state = .done ∧ (done).err = false ∧ (∃ t, exec .start done = .next t) ∧
    (∃ t, exec (.rdDigest 7) done = .next t) ∧ (abc).state ≠ .done ∧ (halted).err = true :=
  ⟨by decide, by decide, by decide, ⟨_, rfl⟩, ⟨_, rfl⟩, by decide, by decide⟩

theorem witness_SideEffectsOfAccesses :
    (readsRegister (.rdDigest 0) = true ∧ ∃ t, exec (.rdDigest 0) abc = .next t) ∧ (∃ t, exec (.wrData 5) abc = .next t) ∧
    (executesCommand (.update 3) = true ∧ ∃ t, exec (.update 3) abc = .next t) := ⟨⟨rfl, _, rfl⟩, ⟨_, rfl⟩, rfl, _, rfl⟩

theorem witness_CommandFrame :
    (abc).err = false ∧
    (commandSucceeds abc .start ∧ ∃ t, exec Command.start.instr abc = .next t) ∧
    (commandSucceeds (active 55 0) .finish ∧ (active 55 0).bufLen.toNat ≤ 55 ∧
      ∃ t, exec Command.finish.instr (active 55 0) = .next t) ∧
    (commandSucceeds (active 62 0) (.update 4) ∧ (4 : BitVec 3).toNat ≤ 4 ∧
      ∃ t, exec (Command.update 4).instr (active 62 0) = .next t) := by
  unfold commandSucceeds
  exact ⟨by decide, ⟨trivial, _, rfl⟩, ⟨by decide, by decide, _, rfl⟩, by decide, by decide, _, rfl⟩

theorem witness_OnlyDataWritesChangeData :
    (∃ t, step (queued abc [wrData 7]) = .next t ∧ t.data ≠ (queued abc [wrData 7]).data) ∧
    (∃ t, step (queued abc [.reset]) = .next t ∧ t.data ≠ (queued abc [.reset]).data) :=
  ⟨⟨_, rfl, by decide⟩, ⟨_, rfl, by decide⟩⟩

theorem witness_OnlyIngestionRaisesTotal :
    (∃ t, step (queued abc [cmd 0x42]) = .next t ∧ t.total ≠ (queued abc [cmd 0x42]).total) ∧
    (∃ t, step (queued abc [cmd 0x01]) = .next t ∧ t.total ≠ (queued abc [cmd 0x01]).total) ∧
    (∃ t, step (queued abc [.reset]) = .next t ∧ t.total ≠ (queued abc [.reset]).total) :=
  ⟨⟨_, rfl, by decide⟩, ⟨_, rfl, by decide⟩, ⟨_, rfl, by decide⟩⟩

theorem witness_DigestStaysUntilStartOrReset :
    (queued done [cmd 0x03]).state = .done ∧ (∃ t, step (queued done [cmd 0x03]) = .next t) ∧
    (∃ t, step (queued done [cmd 0x01]) = .next t ∧ t.state ≠ .done) := ⟨by decide, ⟨_, rfl⟩, ⟨_, rfl, by decide⟩⟩

theorem witness_PhaseTransitions :
    (∀ w s, ∃ t, exec (.wrCmd w) s = .next t) ∧ (abc).err = false ∧ decodeCmd 0x01 = .ok .start ∧
    decodeCmd 0x42 = .ok (.update 4) ∧ (abc).state = .active ∧ (abc).total.toNat + (4 : BitVec 3).toNat ≤ 2 ^ 61 - 1 ∧
    2 ^ 61 - 1 < (atLimit 0).total.toNat + (4 : BitVec 3).toNat ∧ (done).state ≠ .active ∧ decodeCmd 0x03 = .ok .finish ∧
    decodeCmd 0x52 = .error .badCount ∧ (halted).err = true ∧ (∃ t, step (queued halted [.reset]) = .next t) :=
  ⟨fun _ _ => ⟨_, rfl⟩, by decide, by decide, by decide, by decide, by decide, by decide, by decide, by decide, by decide,
    by decide, _, rfl⟩

theorem witness_UpdateSeesEarlierDataWrites :
    decodeCmd 0x42 = .ok (.update 4) ∧
    (queued abc [wrData 5, cmd 0x42]).pending = .access (.write 32 0x04 5) :: .access (.write 32 0x00 0x42) :: [] ∧
    (queued abc [cmd 0x42, wrData 5]).pending = .access (.write 32 0x00 0x42) :: .access (.write 32 0x04 5) :: [] ∧
    ∃ t, exec (.update 4) { queued abc [cmd 0x42, wrData 5] with pending := [] } = .next t :=
  ⟨by decide, rfl, rfl, _, rfl⟩

theorem witness_ResetValues : (queued halted [.reset]).pending = .reset :: [] := rfl

/-- The invariants hold of a state in a computation, and one step of it answers. -/
theorem witness_StepKeepsInvariant :
    Invariant (queued (active 63 0) [cmd 0x42]) ∧ ∃ t, step (queued (active 63 0) [cmd 0x42]) = .next t :=
  ⟨⟨by decide, by decide, by decide, by decide, by decide, by decide⟩, _, rfl⟩

theorem witness_StepTracksTheMessage :
    Tracks [0x61, 0x62, 0x63] (queued abc [cmd 0x32]) ∧ ∃ t, step (queued abc [cmd 0x32]) = .next t :=
  ⟨⟨by decide, by decide, by decide, by decide, by decide⟩, _, rfl⟩

/-- "abc" as one chunk and as the three of V5. -/
theorem witness_DigestIsTheHashOfTheMessage :
    (State.reset).err = false ∧ (∀ c ∈ [((0x61626300 : Word), (3 : BitVec 3))], c.2.toNat ≤ 4) ∧
    (chunksMessage [(0x61626300, 3)]).length ≤ 2 ^ 61 - 1 ∧
    (queued State.reset (digestEvents [(0x61626300, 3)])).pending = digestEvents [(0x61626300, 3)] ++ [] :=
  ⟨rfl, by simp, by decide, rfl⟩

theorem witness_StreamingEquivalence :
    let cs : List (Word × BitVec 3) := [(0x61626300, 3)]
    let ds : List (Word × BitVec 3) := [(0x61000000, 1), (0x62FFFFFF, 1), (0, 0), (0x63626100, 1)]
    chunksMessage cs = chunksMessage ds ∧ (∀ d ∈ ds, d.2.toNat ≤ 4) ∧ (chunksMessage cs).length ≤ 2 ^ 61 - 1 ∧
    (queued State.reset (digestEvents cs)).pending = digestEvents cs ++ [] ∧
    (queued abc (digestEvents ds)).pending = digestEvents ds ++ [] ∧ (abc).err = false ∧
    after (Host.Core.run Sys2Proof.core (digestEvents cs).length (queued State.reset (digestEvents cs))) (fun _ => true) = true ∧
    after (Host.Core.run Sys2Proof.core (digestEvents ds).length (queued abc (digestEvents ds))) (fun _ => true) = true :=
  ⟨by decide, by simp, by decide, rfl, rfl, rfl, by decide +kernel, by decide +kernel⟩

theorem witness_HashProgramReadsTheDigest :
    (State.reset).err = false ∧ (State.reset).faulted = false ∧ ([0x61, 0x62, 0x63, 0x64, 0x65] : List Byte).length ≤ 2 ^ 61 - 1 ∧
    (queued State.reset (assemble (hashProgram [0x61, 0x62, 0x63, 0x64, 0x65]))).pending =
      assemble (hashProgram [0x61, 0x62, 0x63, 0x64, 0x65]) := ⟨rfl, rfl, by decide, rfl⟩

/-- Two states that differ in BUF behind the message. -/
theorem witness_UnspecifiedStateIsUnobservable :
    Indistinguishable abc { abc with buf := abc.buf.set 3 0xFF } ∧ abc.buf ≠ abc.buf.set 3 0xFF ∧
    (∃ t, step abc = .next t) :=
  ⟨⟨rfl, rfl, rfl, rfl, rfl, rfl, rfl, rfl, rfl, fun _ => rfl, by decide⟩, by decide, _, rfl⟩

theorem witness_ShiftsAreExact : (1 : Nat) < 32 ∧ (0 : Nat) < 1 ∧ (31 : Nat) < 32 := by decide

/-- The bit positions 0 and 31 of a word. -/
theorem witness_ChooseAndMajority : (0 : Nat) < 32 ∧ (31 : Nat) < 32 := by decide
theorem witness_SigmaFunctions : (0 : Nat) < 32 ∧ (31 : Nat) < 32 := by decide

/-- The schedule words on both sides of the recurrence's start, and the last. -/
theorem witness_ScheduleWords : (15 : Nat) < 16 ∧ (16 : Nat) ≤ 16 ∧ (16 : Nat) ≤ 63 ∧ (63 : Nat) < 64 := by decide
theorem witness_CompressRunsSixtyFourRounds : (0 : Nat) < 64 ∧ (63 : Nat) < 64 := by decide
theorem witness_ConstantTablesFromPrimes : (63 : Nat) < 64 ∧ (7 : Nat) < 8 ∧ primes64.getD 63 0 = 311 := by decide

/-- Zero counts other than the least also bring the length to 56 mod 64. -/
theorem witness_PaddedMessageShape : (([] : List Byte).length + 1 + 55) % 64 = 56 ∧ (([] : List Byte).length + 1 + 119) % 64 = 56 := by
  decide
theorem witness_ByteOrderPrimitives : (0 : Nat) < 8 ∧ (7 : Nat) < 8 := by decide

theorem witness_DataLaneOrder :
    (3 : BitVec 3).toNat ≤ 4 ∧
    (∀ k, k < (3 : BitVec 3).toNat → (0x616263FF : Word).extractLsb' (24 - 8 * k) 8 = (abc).data.extractLsb' (24 - 8 * k) 8) ∧
    (∃ t, exec (.update 3) abc = .next t) ∧
    (active 60 0).err = false ∧ (active 60 0).state = .active ∧ (active 60 0).total.toNat + 4 ≤ 2 ^ 61 - 1 ∧
    (active 60 0).bufLen.toNat = 4 * (15 : Fin 16).val ∧ (∃ t, exec (.update 4) (active 60 0) = .next t) :=
  ⟨by decide, by decide, ⟨_, rfl⟩, by decide, by decide, by decide, by decide, _, rfl⟩

theorem witness_DigestByteOrder : (done).state = .done ∧ (done).err = false := by decide

def twoEngines : List Engine := [⟨0x100, State.reset⟩, ⟨0x40, done⟩]

/-- R8: a platform has at least one engine, and one is enough; bases are aligned. -/
theorem test_platformWellFormed :
    platformWellFormed [] = false ∧ platformWellFormed [⟨0, State.reset⟩] = true ∧
    platformWellFormed [⟨0x20, State.reset⟩] = false := by decide

theorem witness_EnginesShareNothing :
    ∃ es', platformAccess (.read 32 0x7C) twoEngines = some es' ∧ es'.length = 2 := ⟨_, rfl, by decide⟩

/-- The last offset of the second engine's window, and the addresses just outside both windows. -/
theorem witness_AddressDecode :
    platformWellFormed twoEngines = true ∧ twoEngines[1]? = some ⟨0x40, done⟩ ∧
    (∀ g ∈ twoEngines, 0x3F < g.base ∨ g.base + 0x40 ≤ 0x3F) ∧ (∀ g ∈ twoEngines, 0x80 < g.base ∨ g.base + 0x40 ≤ 0x80) := by
  decide

end Sys2Proof.Tests
end

section
/-! Proofs of the statements of 00_scope.md: the word operators (R10) and the byte orders (R11). -/

namespace Sys2Proof.Machine

/-! ### The word operators (R10) -/

@[simp] theorem shr_toNat (x : Word) (n : Nat) : (shr x n).toNat = x.toNat / 2 ^ n := by
  simp [shr, Nat.shiftRight_eq_div_pow]

@[simp] theorem shr_getLsbD (x : Word) (n i : Nat) : (shr x n).getLsbD i = x.getLsbD (i + n) := by
  simp [shr, Nat.add_comm]

theorem rotr_toNat (x : Word) (n : Nat) :
    (rotr x n).toNat = x.toNat / 2 ^ n ||| (x.toNat * 2 ^ (32 - n)) % 2 ^ 32 := by
  rw [rotr, BitVec.toNat_or, shr_toNat, BitVec.toNat_shiftLeft, Nat.shiftLeft_eq]

/-- R10's formula is the library's rotation. -/
theorem rotr_eq_rotateRight (x : Word) {n : Nat} (hn : n < 32) : rotr x n = x.rotateRight n := by
  rw [BitVec.rotateRight_def, Nat.mod_eq_of_lt hn]
  rfl

/-- A rotation by n moves bit i + n to bit i, the position taken modulo 32. -/
theorem rotr_getLsbD (x : Word) {n i : Nat} (hn : n < 32) (hi : i < 32) :
    (rotr x n).getLsbD i = x.getLsbD ((i + n) % 32) := by
  rw [rotr_eq_rotateRight x hn, BitVec.getLsbD_rotateRight, Nat.mod_eq_of_lt hn]
  rcases Nat.lt_or_ge i (32 - n) with hlow | hwrap
  · have hpos : (i + n) % 32 = n + i := by omega
    simp [hlow, hpos]
  · have hpos : (i + n) % 32 = i - (32 - n) := by omega
    simp [hi, Nat.not_lt.mpr hwrap, hpos]

/-- The left-to-right fold of the word addition, from any first word, is the sum modulo 2^32. -/
theorem foldl_add_toNat (ws : List Word) (a : Word) :
    (ws.foldl (· + ·) a).toNat = (a.toNat + (ws.map BitVec.toNat).sum) % 2 ^ 32 := by
  induction ws generalizing a with
  | nil => simp [Nat.mod_eq_of_lt a.isLt]
  | cons w ws ih =>
    rw [List.foldl_cons, ih, BitVec.toNat_add, List.map_cons, List.sum_cons, Nat.mod_add_mod, Nat.add_assoc]

/-! ### The byte orders (R11) -/

/-- Appending n bits below a bit vector shifts it up by n places. -/
theorem append_toNat {m n : Nat} (x : BitVec m) (y : BitVec n) : (x ++ y).toNat = x.toNat * 2 ^ n + y.toNat := by
  rw [BitVec.toNat_append, ← Nat.shiftLeft_add_eq_or_of_lt y.isLt, Nat.shiftLeft_eq]

theorem be32_toNat (b0 b1 b2 b3 : Byte) :
    (be32 b0 b1 b2 b3).toNat = b0.toNat * 2 ^ 24 + b1.toNat * 2 ^ 16 + b2.toNat * 2 ^ 8 + b3.toNat := by
  rw [be32, append_toNat, append_toNat, append_toNat]
  omega

/-- BE32bytes takes apart what BE32 puts together: each byte is a digit of BE32's number to the base 2^8. -/
theorem be32Bytes_be32 (b0 b1 b2 b3 : Byte) : be32Bytes (be32 b0 b1 b2 b3) = [b0, b1, b2, b3] := by
  have hnum := be32_toNat b0 b1 b2 b3
  simp only [be32Bytes, List.cons.injEq, and_true, BitVec.toNat_eq, BitVec.extractLsb'_toNat, Nat.shiftRight_eq_div_pow]
  refine ⟨?_, ?_, ?_, ?_⟩ <;> omega

@[simp] theorem be64Bytes_length (d : Doubleword) : (be64Bytes d).length = 8 := rfl

/-- Byte k of BE64bytes, counted from the most significant, is bits 63-8k : 56-8k. -/
theorem be64Bytes_getD (d : Doubleword) {k : Nat} (hk : k < 8) :
    (be64Bytes d).getD k 0 = d.extractLsb' (56 - 8 * k) 8 := by
  interval_cases k <;> rfl

/-! ### The statements -/

/-- Settles O47: numbers through `toNat`, and the rotation's bits through the library's `rotateRight`. -/
theorem shiftsAreExact : Obligations.ShiftsAreExact :=
  ⟨fun x n _ => shr_toNat x n,
   fun x n _ _ => rotr_toNat x n,
   fun x _ _ _ hn hi => rotr_getLsbD x hn hi,
   BitVec.toNat_add,
   fun ws => by simpa using foldl_add_toNat ws 0,
   fun x => (BitVec.xor_allOnes (x := x)).symm,
   fun _ _ _ => ⟨BitVec.getLsbD_and, BitVec.getLsbD_or, BitVec.getLsbD_xor⟩⟩

/-- Settles O55: the byte lists are the definitions' own; the number of BE32 and its inverse go through the appended bytes. -/
theorem byteOrderPrimitives : Obligations.ByteOrderPrimitives :=
  ⟨be32_toNat, fun _ => rfl, be32Bytes_be32, fun d => ⟨be64Bytes_length d, fun _ hk => be64Bytes_getD d hk⟩⟩

end Sys2Proof.Machine
end

section
/-! What a step leaves of the registers, in the three cases that the statements of 10_state.md turn on: a reset, a CMD write, or
any other event, which keeps every register but DATA. -/

namespace Sys2Proof.Machine

/-! ### The command words (R71, R73) -/

/-- A command word is its three fields, RSV the highest. -/
theorem fields_append (w : Word) : fieldRsv w ++ fieldN w ++ fieldOp w = w := by
  apply BitVec.eq_of_toNat_eq
  simp only [append_toNat, fieldRsv, fieldN, fieldOp, BitVec.extractLsb'_toNat, Nat.shiftRight_eq_div_pow]
  have := w.isLt
  omega

/-- START is one word only (R74). -/
theorem decodeCmd_start_word {w : Word} (h : decodeCmd w = .ok .start) : w = 0x00000001 := by
  unfold decodeCmd at h
  split_ifs at h with hrsv hop hn
  · rw [← fields_append w, not_not.mp hrsv, hn, hop]
    rfl
  · cases h
  · cases h

/-- Only a 32-bit write to offset 0x00 asks for a CMD write (R51, R78). -/
theorem decodeRequest_wrCmd {r : BusRequest} {w : Word} (h : decodeRequest r = .ok (.wrCmd w)) :
    r = .write 32 0x00 w := by
  cases r with
  | read width off => simpa [admittedRead] using (decodeRequest_read_ok h).2
  | write width off v =>
    obtain ⟨rfl, ⟨rfl, hw⟩ | ⟨-, hw⟩⟩ := decodeRequest_write_ok h
    · cases hw; rfl
    · cases hw

/-! ### Commands that succeed, and the register no command writes -/

section
variable {s : State}

theorem doUpdate_of_succeeds {n : BitVec 3} (h : commandSucceeds s (.update n)) :
    doUpdate n s = absorbAll (lanes n s.data) { s with total := s.total + n.zeroExtend 64 } := by
  obtain ⟨hact, -, hlen⟩ := h
  simp [doUpdate, hact, Nat.not_lt.mpr hlen]

theorem doFinish_of_active (h : s.state = .active) :
    doFinish s = { padAndCompress s with bufLen := 0, state := .done } := by
  simp [doFinish, h]

end

section
variable (s : State)

@[simp] theorem doUpdate_data (n : BitVec 3) : (doUpdate n s).data = s.data := by
  rcases doUpdate_cases s n with ⟨-, h⟩ | ⟨-, -, h⟩ | ⟨-, -, h⟩ <;> simp [h]

@[simp] theorem doFinish_data : (doFinish s).data = s.data := by
  rcases doFinish_cases s with ⟨-, h⟩ | ⟨-, h⟩ <;> simp [h]

/-- No CMD write changes DATA (R28). -/
@[simp] theorem completeCmd_data (c : Except Reject Command) : (completeCmd c s).data = s.data := by
  rcases issue_cases s c with ⟨-, h⟩ | ⟨-, -, h⟩ | ⟨-, k, -, h⟩ <;> rw [completeCmd, respond_data, h]
  · rfl
  · cases k <;> simp [doCommand]

end

/-! ### Steps -/

/-- `t` has the registers of `s`, but perhaps another DATA, and the mark where `s` has it. -/
structure RegistersKept (s t : State) : Prop where
  state : t.state = s.state
  hash : t.h = s.h
  buf : t.buf = s.buf
  bufLen : t.bufLen = s.bufLen
  total : t.total = s.total
  err : t.err = s.err
  cause : t.cause = s.cause
  marked : s.faulted = true → t.faulted = true

/-- The event served next is a write of `w` to CMD. -/
def ServesCmd (w : Word) (s : State) : Prop := ∃ rest, s.pending = .access (.write 32 0x00 w) :: rest

theorem step_cmdWrite {s : State} {w : Word} {rest : List BusEvent}
    (h : s.pending = .access (.write 32 0x00 w) :: rest) :
    step s = .next (completeCmd (decodeCmd w) { s with pending := rest }) := step_access h

/-- What a step does to the registers: a reset, a CMD write, or nothing but to DATA. -/
theorem step_registers {s t : State} (h : step s = .next t) :
    (∃ rest, s.pending = .reset :: rest ∧ t = resetEngine { s with pending := rest }) ∨
    (∃ w rest, s.pending = .access (.write 32 0x00 w) :: rest ∧
      t = completeCmd (decodeCmd w) { s with pending := rest }) ∨
    ((∀ w, ¬ ServesCmd w s) ∧ RegistersKept s t) := by
  by_cases hc : ∃ w, ServesCmd w s
  · obtain ⟨w, rest, hp⟩ := hc
    rw [step_cmdWrite hp] at h
    cases h
    exact .inr (.inl ⟨w, rest, hp, rfl⟩)
  · have hno := not_exists.mp hc
    rcases step_cases h with ⟨-, rfl⟩ | hreset | ⟨w, rest, hp, -⟩ | ⟨v, rest, -, rfl⟩ | ⟨v, r, rest, -, rfl⟩ |
      ⟨r, rest, -, rfl⟩
    · exact .inr (.inr ⟨hno, rfl, rfl, rfl, rfl, rfl, rfl, rfl, id⟩)
    · exact .inl hreset
    · exact absurd ⟨rest, hp⟩ (hno w)
    · exact .inr (.inr ⟨hno, rfl, rfl, rfl, rfl, rfl, rfl, rfl, id⟩)
    · exact .inr (.inr ⟨hno, rfl, rfl, rfl, rfl, rfl, rfl, rfl, id⟩)
    · exact .inr (.inr ⟨hno, rfl, rfl, rfl, rfl, rfl, rfl, rfl, fun _ => rfl⟩)

end Sys2Proof.Machine
end

section
/-! Proofs of the statements of 10_state.md about single registers: the invariants (R35), who writes DATA and TOTAL (R25, R28),
the digest in DONE (R32), and the views STATUS, LEN_LO and LEN_HI (R30, R31). -/

namespace Sys2Proof.Machine

/-! ### The invariants (R35) -/

theorem resetEngine_invariant (s : State) : Invariant (resetEngine s) where
  totalBound := by simp
  activeLen h := by simp at h
  doneLen _ := rfl
  idleLen _ := ⟨rfl, rfl⟩
  causeErr := by simp
  errMarked h := by simp at h

theorem RegistersKept.invariant {s t : State} (h : RegistersKept s t) (hi : Invariant s) : Invariant t where
  totalBound := by rw [h.total]; exact hi.totalBound
  activeLen := by rw [h.state, h.total, h.bufLen]; exact hi.activeLen
  doneLen := by rw [h.state, h.bufLen]; exact hi.doneLen
  idleLen := by rw [h.state, h.total, h.bufLen]; exact hi.idleLen
  causeErr := by rw [h.cause, h.err]; exact hi.causeErr
  errMarked := by rw [h.err]; exact fun he => h.marked (hi.errMarked he)

theorem errorState_invariant {c : Cause} {s : State} (hi : Invariant s) (hc : c ≠ .none) :
    Invariant (errorState c s) :=
  { hi with
    causeErr := by simp [errorState, hc]
    errMarked := fun _ => rfl }

/-- A command that succeeds keeps the invariants: START and FINISH empty the buffer, UPDATE n raises BUFLEN, modulo 64, and
TOTAL by the same n. -/
theorem doCommand_invariant {k : Command} {s : State} (hi : Invariant s) (hk : commandSucceeds s k) :
    Invariant (doCommand k s) := by
  cases k with
  | start =>
    exact { hi with
      totalBound := Nat.zero_le _
      activeLen := fun _ => rfl
      doneLen := fun h => by cases h
      idleLen := fun h => by cases h }
  | update n =>
    rw [doCommand, doUpdate_of_succeeds hk]
    obtain ⟨hact, -, hlen⟩ := hk
    have htotal := total_add s n hlen
    constructor
    · rw [absorbAll_total, htotal]
      exact hlen
    · intro _
      have hbuf := hi.activeLen hact
      simp only [absorbAll_bufLen, absorbAll_total, lanes_length, htotal]
      omega
    · simp [hact]
    · simp [hact]
    · simpa using hi.causeErr
    · simpa using hi.errMarked
  | finish =>
    rw [doCommand, doFinish_of_active hk]
    constructor
    · simpa using hi.totalBound
    · simp
    · simp
    · simp
    · simpa using hi.causeErr
    · simpa using hi.errMarked

theorem respond_registersKept (r : BusResponse) (s : State) : RegistersKept s (respond r s) :=
  ⟨rfl, rfl, rfl, rfl, rfl, rfl, rfl, id⟩

theorem pending_registersKept (p : List BusEvent) (s : State) : RegistersKept s { s with pending := p } :=
  ⟨rfl, rfl, rfl, rfl, rfl, rfl, rfl, id⟩

theorem completeCmd_invariant {s : State} (w : Word) (hi : Invariant s) : Invariant (completeCmd (decodeCmd w) s) := by
  rcases completeCmd_cases w s with ⟨-, h⟩ | ⟨-, c, hc, h⟩ | ⟨-, k, -, hk, h⟩ <;> rw [h]
  · exact (respond_registersKept _ _).invariant hi
  · exact errorState_invariant hi hc
  · exact (respond_registersKept _ _).invariant (doCommand_invariant hi hk)

/-- Settles O39: a reset of the reset state leaves it as it is, so it has what every reset gives. -/
theorem invariantHoldsAtReset : Obligations.InvariantHoldsAtReset := resetEngine_invariant State.reset

/-- Settles O40, by the three cases of a step. -/
theorem stepKeepsInvariant : Obligations.StepKeepsInvariant := by
  intro s t hi h
  rcases step_registers h with ⟨rest, -, rfl⟩ | ⟨w, rest, -, rfl⟩ | ⟨-, hkept⟩
  · exact resetEngine_invariant _
  · exact completeCmd_invariant w ((pending_registersKept rest s).invariant hi)
  · exact hkept.invariant hi

/-! ### Who writes DATA and TOTAL (R25, R28), and the digest in DONE (R32) -/

/-- Settles O33: of the events a step can serve, only a DATA write and a reset change DATA. -/
theorem onlyDataWritesChangeData : Obligations.OnlyDataWritesChangeData := by
  intro s t h hne
  rcases step_cases h with ⟨-, rfl⟩ | ⟨rest, hp, rfl⟩ | ⟨w, rest, -, rfl⟩ | ⟨v, rest, hp, rfl⟩ | ⟨v, r, rest, -, rfl⟩ |
    ⟨r, rest, -, rfl⟩
  · exact absurd rfl hne
  · exact ⟨rest, .inr ⟨hp, rfl⟩⟩
  · exact absurd (completeCmd_data _ _) hne
  · exact ⟨rest, .inl hp⟩
  · exact absurd rfl hne
  · exact absurd rfl hne

/-- Settles O34: a CMD write changes TOTAL only if its command succeeds, and FINISH keeps it. -/
theorem onlyIngestionRaisesTotal : Obligations.OnlyIngestionRaisesTotal := by
  intro s t h hne
  rcases step_registers h with ⟨rest, hp, rfl⟩ | ⟨w, rest, hp, rfl⟩ | ⟨-, hkept⟩
  · exact ⟨rest, .inl ⟨hp, rfl⟩⟩
  · refine ⟨rest, .inr ?_⟩
    rcases completeCmd_cases w { s with pending := rest } with ⟨-, hc⟩ | ⟨-, c, -, hc⟩ | ⟨-, k, hk, hs, hc⟩ <;>
      rw [hc] at hne ⊢
    · exact absurd rfl hne
    · exact absurd rfl hne
    · cases k with
      | start => exact .inl ⟨by rw [hp, decodeCmd_start_word hk], rfl⟩
      | update n =>
        refine .inr ⟨w, n, hp, hk, hs.1, ?_⟩
        rw [doCommand, doUpdate_of_succeeds hs, respond_total, absorbAll_total]
        exact total_add s n hs.2.2
      | finish =>
        rw [doCommand, doFinish_of_active hs] at hne
        exact absurd (padAndCompress_total _) hne
  · exact absurd hkept.total hne

/-- Settles O35: outside ACTIVE no command but START succeeds, and an error entry changes none of these registers. -/
theorem digestStaysUntilStartOrReset : Obligations.DigestStaysUntilStartOrReset := by
  intro s t hdone h
  rcases step_registers h with ⟨rest, hp, -⟩ | ⟨w, rest, hp, rfl⟩ | ⟨-, hkept⟩
  · exact .inl ⟨rest, .inl hp⟩
  · rcases completeCmd_cases w { s with pending := rest } with ⟨-, hc⟩ | ⟨-, c, -, hc⟩ | ⟨-, k, hk, hs, -⟩
    · rw [hc]; exact .inr ⟨rfl, hdone, rfl, rfl⟩
    · rw [hc]; exact .inr ⟨rfl, hdone, rfl, rfl⟩
    · cases k with
      | start => exact .inl ⟨rest, .inr (by rw [hp, decodeCmd_start_word hk])⟩
      | update n => exact absurd (hdone.symm.trans hs.1) (by decide)
      | finish => exact absurd (hdone.symm.trans hs) (by decide)
  · exact .inr ⟨hkept.hash, hkept.state.trans hdone, hkept.total, hkept.bufLen⟩

/-! ### The views STATUS, LEN_LO and LEN_HI (R30, R31) -/

/-- STATUS as a number: its fields at their places, the reserved bits 0. -/
theorem statusWord_toNat (s : State) :
    (statusWord s).toNat = s.bufLen.toNat * 2 ^ 8 + (causeCode s.cause).toNat * 2 ^ 4 + s.err.toNat * 2 ^ 2
      + (phaseCode s.state).toNat := by
  have hbuf := s.bufLen.isLt
  have hcause := (causeCode s.cause).isLt
  have hphase := (phaseCode s.state).isLt
  have herr := s.err.toNat_lt
  simp only [statusWord, BitVec.toNat_setWidth, append_toNat, BitVec.toNat_ofBool, BitVec.toNat_ofNat]
  omega

/-- Bit i of a word, as a digit of its number. -/
theorem getLsbD_eq_digit (w : Word) (i : Nat) : w.getLsbD i = decide (w.toNat / 2 ^ i % 2 = 1) := by
  rw [← BitVec.testBit_toNat, Nat.testBit_eq_decide_div_mod_eq]

/-- The fields of STATUS (R30). -/
theorem statusWord_fields (s : State) :
    (statusWord s).extractLsb' 0 2 = phaseCode s.state ∧ (statusWord s).getLsbD 2 = s.err ∧
    (statusWord s).getLsbD 3 = false ∧ (statusWord s).extractLsb' 4 4 = causeCode s.cause ∧
    (statusWord s).extractLsb' 8 6 = s.bufLen ∧ (statusWord s).extractLsb' 14 18 = 0#18 := by
  have hbuf := s.bufLen.isLt
  have hcause := (causeCode s.cause).isLt
  have hphase := (phaseCode s.state).isLt
  have herr := s.err.toNat_lt
  have hbit : s.err = decide (s.err.toNat = 1) := by cases s.err <;> rfl
  rw [getLsbD_eq_digit, getLsbD_eq_digit, hbit]
  simp only [BitVec.toNat_eq, BitVec.extractLsb'_toNat, statusWord_toNat, Nat.shiftRight_eq_div_pow, decide_eq_decide,
    decide_eq_false_iff_not, BitVec.toNat_ofNat]
  refine ⟨?_, ?_, ?_, ?_, ?_, ?_⟩ <;> omega

/-- Settles O28, from STATUS as a number. -/
theorem statusFields : Obligations.StatusFields := by
  refine ⟨by decide, fun s => ⟨statusWord s, exec_rdStatus s, ?_⟩, rfl⟩
  obtain ⟨hphase, herr, hzero, hcause, hbuf, hrest⟩ := statusWord_fields s
  refine ⟨?_, herr, hzero, ?_, hbuf, hrest⟩
  · rw [hphase]; cases s.state <;> rfl
  · rw [hcause]; cases s.cause <;> rfl

theorem lenLo_toNat (total : Doubleword) : (lenLo total).toNat = total.toNat % 2 ^ 32 := by
  simp [lenLo]

theorem lenHi_toNat (total : Doubleword) : (lenHi total).toNat = total.toNat / 2 ^ 32 := by
  have := total.isLt
  simp only [lenHi, BitVec.extractLsb'_toNat, Nat.shiftRight_eq_div_pow]
  omega

/-- Settles O29, from the two halves of TOTAL as numbers. -/
theorem lengthHalves : Obligations.LengthHalves := by
  refine ⟨by decide, by decide, fun s =>
    ⟨lenLo s.total, lenHi s.total, exec_rdLenLo s, exec_rdLenHi s, lenLo_toNat _, lenHi_toNat _, ?_, ?_⟩⟩
  · intro hmax
    have hhi := lenHi_toNat s.total
    apply BitVec.eq_of_toNat_eq
    simp only [BitVec.extractLsb'_toNat, Nat.shiftRight_eq_div_pow, BitVec.toNat_ofNat]
    omega
  · rintro rfl
    exact ⟨rfl, rfl⟩

end Sys2Proof.Machine
end

section
/-! The engine and its message (10_state.md R35, 40_digest_commands.md R104 to R109): the buffer while bytes are absorbed, the
padded blocks of FINISH as the blocks of pad(M), and the relation kept by every step. -/

namespace Sys2Proof.Machine

/-! ### The blocks FINISH compresses (R104, R106) -/

/-- BUF with 0x80 after the message tail and zeros after that: the first of FINISH's two blocks, or the start of its only one. -/
def markedTail (s : State) : Block := zeroFill (s.bufLen.toNat + 1) 63 (markedBlock s)

/-- The block FINISH compresses last, which ends in the bit count. -/
def finalBlock (s : State) : Block :=
  if 56 < s.bufLen.toNat + 1 then lengthBlock 0 (bitCount s.total) (markedTail s)
  else lengthBlock (s.bufLen.toNat + 1) (bitCount s.total) (markedBlock s)

theorem markedTail_getElem (s : State) {k : Nat} (hk : k < 64) :
    (markedTail s)[k] = if k < s.bufLen.toNat then bufByte s k else if k = s.bufLen.toNat then 0x80 else 0 := by
  rw [markedTail, zeroFill_getElem _ _ _ hk, markedBlock_getElem s hk, bufByte_of_lt s hk]
  rcases Nat.lt_trichotomy k s.bufLen.toNat with h | h | h
  · rw [if_neg (by omega), if_neg (by omega), if_pos h]
  · rw [if_neg (by omega), if_pos h, if_neg (by omega), if_pos h]
  · rw [if_pos (by omega), if_neg (by omega), if_neg (by omega)]

theorem finalBlock_getElem (s : State) {k : Nat} (hk : k < 64) :
    (finalBlock s)[k] =
      if 56 ≤ k then (be64Bytes (bitCount s.total)).getD (k - 56) 0
      else if 55 < s.bufLen.toNat then 0 else (markedTail s)[k] := by
  unfold finalBlock
  by_cases hlong : 55 < s.bufLen.toNat
  · rw [if_pos hlong, if_pos (by omega)]
    simp [lengthBlock_getElem _ _ _ hk]
  · rw [if_neg hlong, if_neg (by omega), lengthBlock_getElem _ _ _ hk, markedTail, zeroFill_getElem _ _ _ hk]
    simp [show k ≤ 63 by omega]

/-- H after padding: two compressions when the marker and the bit count do not fit in one block (R106). -/
theorem padAndCompress_h (s : State) :
    (padAndCompress s).h =
      compress (if 55 < s.bufLen.toNat then compress s.h (markedTail s) else s.h) (finalBlock s) := by
  unfold padAndCompress finalBlock
  dsimp only
  by_cases hlong : 55 < s.bufLen.toNat
  · have hp : 56 < s.bufLen.toNat + 1 := by omega
    rw [if_pos hp, if_pos hp, if_pos hlong]
    rfl
  · have hp : ¬ 56 < s.bufLen.toNat + 1 := by omega
    rw [if_neg hp, if_neg hp, if_neg hlong]
    rfl

/-! ### Absorb and the message (R102, R103) -/

/-- BUF holds the unprocessed tail of `m`, and H the IV with the full blocks of `m` compressed into it. -/
structure Buffered (m : List Byte) (s : State) : Prop where
  bufLenMod : s.bufLen.toNat = m.length % 64
  tail : ∀ k, k < s.bufLen.toNat → bufByte s k = m.getD (64 * (m.length / 64) + k) 0
  hash : s.h = hashBlocks initialHash m (m.length / 64)

/-- More bytes do not change the full blocks there were. -/
theorem hashBlocks_append (h : Hash) (m ms : List Byte) {n : Nat} (hn : 64 * n ≤ m.length) :
    hashBlocks h (m ++ ms) n = hashBlocks h m n :=
  hashBlocks_congr h _ _ n fun k hk => List.getD_append m ms 0 k (by omega)

theorem absorb_buffered {m : List Byte} {s : State} (b : Byte) (h : Buffered m s) : Buffered (m ++ [b]) (absorb b s) := by
  obtain ⟨hmod, htail, hhash⟩ := h
  have hlen : (m ++ [b]).length = m.length + 1 := by simp
  have hbyte : ∀ k, k ≤ s.bufLen.toNat →
      bufByte (absorb b s) k = (m ++ [b]).getD (64 * (m.length / 64) + k) 0 := by
    intro k hk
    rw [absorb_bufByte]
    split
    · have hpos : 64 * (m.length / 64) + k = m.length := by omega
      simp [hpos]
    · rw [htail k (by omega), List.getD_append m [b] 0 _ (by omega)]
  have hfull : hashBlocks initialHash (m ++ [b]) (m.length / 64) = s.h := by
    rw [hashBlocks_append _ _ _ (by omega), hhash]
  refine ⟨by rw [absorb_bufLen, hlen]; omega, ?_, ?_⟩
  · intro k hk
    rw [absorb_bufLen] at hk
    by_cases hlast : s.bufLen.toNat = 63
    · omega
    · rw [hbyte k (by omega), hlen, show (m.length + 1) / 64 = m.length / 64 by omega]
  · rw [absorb_h, hlen]
    split
    · have hblock : blockAt (m ++ [b]) (m.length / 64) = (absorb b s).buf := by
        apply Vector.ext
        intro k hk
        rw [blockAt_getElem _ _ hk, ← bufByte_of_lt _ hk, hbyte k (by omega)]
      rw [show (m.length + 1) / 64 = m.length / 64 + 1 by omega, hashBlocks_succ, hfull, hblock]
    · rw [show (m.length + 1) / 64 = m.length / 64 by omega, hfull]

theorem absorbAll_buffered {m : List Byte} {s : State} (bs : List Byte) (h : Buffered m s) :
    Buffered (m ++ bs) (absorbAll bs s) := by
  induction bs generalizing m s with
  | nil => simpa using h
  | cons b bs ih => simpa using ih (absorb_buffered b h)

/-! ### FINISH and the padded message (R105, R109) -/

theorem bitCount_eq {m : List Byte} {total : Doubleword} (h : total.toNat = m.length) :
    bitCount total = BitVec.ofNat 64 (8 * m.length) := by
  apply BitVec.eq_of_toNat_eq
  simp [bitCount, h, Nat.mul_comm]

/-- The bytes of pad(M) after the full blocks of M and before its length field. -/
theorem padMessage_getD_tail {m : List Byte} {s : State} (h : Buffered m s) {k : Nat} (hk : k < 64)
    (hz : 64 * (m.length / 64) + k < m.length + 1 + padZeros m.length) :
    (padMessage m).getD (64 * (m.length / 64) + k) 0 = (markedTail s)[k] := by
  obtain ⟨hmod, htail, -⟩ := h
  rw [padMessage_getD, markedTail_getElem s hk]
  rcases Nat.lt_trichotomy k s.bufLen.toNat with hlt | heq | hgt
  · rw [if_pos (by omega), if_pos hlt, htail k hlt]
  · rw [if_neg (by omega), if_pos (by omega), if_neg (by omega), if_pos heq]
  · rw [if_neg (by omega), if_neg (by omega), if_pos hz, if_neg (by omega), if_neg (by omega)]

/-- With BUFLEN at least 56, the block of pad(M) after the full blocks of M has no length field in it. -/
theorem blockAt_padMessage_markedTail {m : List Byte} {s : State} (h : Buffered m s) (hlong : 55 < s.bufLen.toNat) :
    blockAt (padMessage m) (m.length / 64) = markedTail s := by
  have hmod := h.bufLenMod
  obtain ⟨hzmod, hzlt⟩ := padZeros_mod m.length
  apply Vector.ext
  intro k hk
  rw [blockAt_getElem _ _ hk, padMessage_getD_tail h hk (by omega)]

/-- With BUFLEN at least 56, the block of pad(M) after that one is zeros and the bit count. -/
theorem blockAt_padMessage_second {m : List Byte} {s : State} (htotal : s.total.toNat = m.length) (h : Buffered m s)
    (hlong : 55 < s.bufLen.toNat) : blockAt (padMessage m) (m.length / 64 + 1) = finalBlock s := by
  have hmod := h.bufLenMod
  obtain ⟨hzmod, hzlt⟩ := padZeros_mod m.length
  apply Vector.ext
  intro k hk
  rw [blockAt_getElem _ _ hk, finalBlock_getElem s hk, bitCount_eq htotal, padMessage_getD, if_neg (by omega),
    if_neg (by omega)]
  by_cases hk56 : 56 ≤ k
  · rw [if_neg (by omega), if_pos hk56]
    congr 1
    omega
  · rw [if_pos (by omega), if_neg hk56, if_pos hlong]

/-- With BUFLEN at most 55, one block holds the message tail, the marker, the zeros and the bit count. -/
theorem blockAt_padMessage_only {m : List Byte} {s : State} (htotal : s.total.toNat = m.length) (h : Buffered m s)
    (hshort : ¬ 55 < s.bufLen.toNat) : blockAt (padMessage m) (m.length / 64) = finalBlock s := by
  have hmod := h.bufLenMod
  obtain ⟨hzmod, hzlt⟩ := padZeros_mod m.length
  apply Vector.ext
  intro k hk
  rw [blockAt_getElem _ _ hk, finalBlock_getElem s hk, bitCount_eq htotal, if_neg hshort]
  by_cases hk56 : 56 ≤ k
  · rw [padMessage_getD, if_neg (by omega), if_neg (by omega), if_neg (by omega), if_pos hk56]
    congr 1
    omega
  · rw [padMessage_getD_tail h hk (by omega), if_neg hk56]

/-- FINISH compresses the blocks of pad(M) that M has not filled. -/
theorem padAndCompress_digest {m : List Byte} {s : State} (htotal : s.total.toNat = m.length) (h : Buffered m s) :
    (padAndCompress s).h = sha256Words m := by
  have hmod := h.bufLenMod
  obtain ⟨hzmod, hzlt⟩ := padZeros_mod m.length
  have hfull : hashBlocks initialHash (padMessage m) (m.length / 64) = s.h := by
    rw [padMessage, List.append_assoc, List.append_assoc, hashBlocks_append _ _ _ (by omega), h.hash]
  rw [padAndCompress_h, sha256Words, padMessage_length]
  by_cases hlong : 55 < s.bufLen.toNat
  · have hblocks : (m.length + 1 + padZeros m.length + 8) / 64 = m.length / 64 + 1 + 1 := by omega
    rw [if_pos hlong, hblocks, hashBlocks_succ, hashBlocks_succ, hfull, blockAt_padMessage_markedTail h hlong,
      blockAt_padMessage_second htotal h hlong]
  · have hblocks : (m.length + 1 + padZeros m.length + 8) / 64 = m.length / 64 + 1 := by omega
    rw [if_neg hlong, hblocks, hashBlocks_succ, hfull, blockAt_padMessage_only htotal h hlong]

/-! ### The relation over commands and steps (R35, R107) -/

theorem Ingested.buffered {m : List Byte} {s : State} (h : Ingested m s) : Buffered m s :=
  ⟨h.bufLenMod, h.tail, h.hash⟩

theorem tracks_of_active {m : List Byte} {s : State} (h : s.state = .active) : Tracks m s ↔ Ingested m s := by
  rw [Tracks, h]

theorem tracks_of_done {m : List Byte} {s : State} (h : s.state = .done) : Tracks m s ↔ Finalized m s := by
  rw [Tracks, h]

theorem resetEngine_tracks (m : List Byte) (s : State) : Tracks m (resetEngine s) := ⟨rfl, rfl⟩

/-- The relation reads STATE, H, BUF, BUFLEN and TOTAL only. -/
theorem Tracks.congr {m : List Byte} {s t : State} (ht : Tracks m s) (hstate : t.state = s.state) (hhash : t.h = s.h)
    (hbuf : t.buf = s.buf) (hbufLen : t.bufLen = s.bufLen) (htotal : t.total = s.total) : Tracks m t := by
  cases hs : s.state with
  | idle =>
    rw [Tracks, hs] at ht
    rw [Tracks, hstate, hs, hbufLen, htotal]
    exact ht
  | active =>
    obtain ⟨hact, hlen, hmod, htail, hh⟩ := (tracks_of_active hs).mp ht
    have hbyte : ∀ k, bufByte t k = bufByte s k := fun k => by rw [bufByte, bufByte, hbuf]
    rw [tracks_of_active (hstate.trans hs)]
    exact ⟨hstate.trans hact, by rw [htotal, hlen], by rw [hbufLen, hmod], by simpa only [hbufLen, hbyte] using htail,
      hhash.trans hh⟩
  | done =>
    obtain ⟨hdone, hlen, hdrained, hdigest⟩ := (tracks_of_done hs).mp ht
    rw [tracks_of_done (hstate.trans hs)]
    exact ⟨hstate.trans hdone, by rw [htotal, hlen], hbufLen.trans hdrained, hhash.trans hdigest⟩

theorem doStart_tracks (s : State) : Tracks [] (doStart s) :=
  (tracks_of_active rfl).mpr ⟨rfl, rfl, rfl, fun k hk => absurd hk (Nat.not_lt_zero k), rfl⟩

theorem doUpdate_tracks {m : List Byte} {s : State} {n : BitVec 3} (h : Ingested m s)
    (hlen : s.total.toNat + n.toNat ≤ Config.maxLen) :
    Tracks (m ++ lanes n s.data) (absorbAll (lanes n s.data) { s with total := s.total + n.zeroExtend 64 }) := by
  have hact : (absorbAll (lanes n s.data) { s with total := s.total + n.zeroExtend 64 }).state = .active := by
    rw [absorbAll_state]; exact h.active
  have hbuf : Buffered m { s with total := s.total + n.zeroExtend 64 } := ⟨h.bufLenMod, h.tail, h.hash⟩
  obtain ⟨hmod, htail, hhash⟩ := absorbAll_buffered (lanes n s.data) hbuf
  refine (tracks_of_active hact).mpr ⟨hact, ?_, hmod, htail, hhash⟩
  rw [absorbAll_total, total_add s n hlen, h.totalLen, List.length_append, lanes_length]

theorem doFinish_tracks {m : List Byte} {s : State} (h : Ingested m s) : Tracks m (doFinish s) := by
  rw [doFinish_of_active h.active]
  refine (tracks_of_done rfl).mpr ⟨rfl, ?_, rfl, padAndCompress_digest h.totalLen h.buffered⟩
  exact (congrArg BitVec.toNat (padAndCompress_total s)).trans h.totalLen

theorem raiseEngineError_tracks {m : List Byte} {s : State} (c : Cause) (h : Tracks m s) :
    Tracks m (raiseEngineError c s) := h.congr rfl rfl rfl rfl rfl

/-- ExecCmd and the message, by what the word decodes to. -/
theorem issue_tracks {m : List Byte} {s : State} (w : Word) (h : Tracks m s) :
    Tracks (messageAfterCmd w m s) (issue (decodeCmd w) s) := by
  unfold messageAfterCmd
  rcases issue_cases s (decodeCmd w) with ⟨he, hi⟩ | ⟨he, ⟨r, hr⟩, hi⟩ | ⟨he, k, hk, hi⟩ <;> rw [hi]
  · simpa [he] using h
  · simpa [he, hr] using raiseEngineError_tracks .illegalCmd h
  · simp only [he, hk, Bool.false_eq_true, if_false]
    cases k with
    | start => exact doStart_tracks s
    | update n =>
      rcases doUpdate_cases s n with ⟨hs, hd⟩ | ⟨hs, hlen, hd⟩ | ⟨hs, hlen, hd⟩ <;> rw [doCommand, hd]
      · simpa [hs] using raiseEngineError_tracks .updateState h
      · simpa [hs, Nat.not_le.mpr hlen] using raiseEngineError_tracks .lengthOverflow h
      · simpa [hs, hlen] using doUpdate_tracks ((tracks_of_active hs).mp h) hlen
    | finish =>
      rcases doFinish_cases s with ⟨hs, hd⟩ | ⟨hs, -⟩
      · rw [doCommand, hd]; exact raiseEngineError_tracks .finishState h
      · exact doFinish_tracks ((tracks_of_active hs).mp h)

/-- Only a CMD write changes the message. -/
theorem messageAfterStep_of_no_cmd {m : List Byte} {s : State} (h : ∀ w, ¬ ServesCmd w s) : messageAfterStep m s = m := by
  unfold messageAfterStep
  split
  next r rest hp =>
    split
    next w hw => exact absurd ⟨rest, by rw [hp, decodeRequest_wrCmd hw]⟩ (h w)
    next => rfl
  next => rfl

theorem messageAfterStep_cmdWrite {m : List Byte} {s : State} {w : Word} {rest : List BusEvent}
    (h : s.pending = .access (.write 32 0x00 w) :: rest) : messageAfterStep m s = messageAfterCmd w m s := by
  rw [messageAfterStep, h]
  rfl

/-- Settles O41, by the three cases of a step; the buffer's and the padding's part is in `absorb_buffered` and
`padAndCompress_digest`. -/
theorem stepTracksTheMessage : Obligations.StepTracksTheMessage := by
  refine ⟨fun m => resetEngine_tracks m State.reset, fun m s t ht h => ?_⟩
  rcases step_registers h with ⟨rest, -, rfl⟩ | ⟨w, rest, hp, rfl⟩ | ⟨hno, hkept⟩
  · exact resetEngine_tracks _ _
  · rw [messageAfterStep_cmdWrite hp]
    have hserved : Tracks m { s with pending := rest } := ht.congr rfl rfl rfl rfl rfl
    exact (issue_tracks w hserved).congr rfl rfl rfl rfl rfl
  · rw [messageAfterStep_of_no_cmd hno]
    exact ht.congr hkept.state hkept.hash hkept.buf hkept.bufLen hkept.total

end Sys2Proof.Machine
end

section
/-! What the spec leaves unspecified (10_state.md R22, R23; 60_exceptions.md R217): H outside a computation and the bytes of BUF
that hold no message byte reach neither an answer nor a register that does. -/

namespace Sys2Proof.Machine

/-! ### The operations keep indistinguishable states so -/

section
variable {s s' : State} (h : Indistinguishable s s')
include h

theorem respond_indistinguishable (r : BusResponse) : Indistinguishable (respond r s) (respond r s') :=
  { h with response := rfl }

theorem pending_indistinguishable (p : List BusEvent) :
    Indistinguishable { s with pending := p } { s' with pending := p } :=
  { h with pending := rfl }

theorem data_indistinguishable (v : Word) : Indistinguishable { s with data := v } { s' with data := v } :=
  { h with data := rfl }

theorem total_indistinguishable (d : Doubleword) : Indistinguishable { s with total := d } { s' with total := d } :=
  { h with total := rfl }

theorem raiseBusError_indistinguishable : Indistinguishable (raiseBusError s) (raiseBusError s') :=
  { h with response := rfl, faulted := rfl }

theorem raiseEngineError_indistinguishable (c : Cause) :
    Indistinguishable (raiseEngineError c s) (raiseEngineError c s') :=
  { h with err := rfl, cause := rfl, faulted := rfl }

/-- After a reset the two states have the same registers. -/
theorem resetEngine_indistinguishable : Indistinguishable (resetEngine s) (resetEngine s') where
  state := rfl
  bufLen := rfl
  total := rfl
  err := rfl
  cause := rfl
  data := rfl
  faulted := h.faulted
  pending := h.pending
  response := rfl
  hash _ := rfl
  tail hact := by cases hact

/-- START loads H and leaves no message byte in BUF. -/
theorem doStart_indistinguishable : Indistinguishable (doStart s) (doStart s') :=
  { h with
    state := rfl
    bufLen := rfl
    total := rfl
    hash := fun _ => rfl
    tail := fun _ k hk => absurd hk (Nat.not_lt_zero k) }

theorem active_hash_eq (hact : s.state = .active) : s.h = s'.h := h.hash (by simp [hact])

/-- The byte absorbed last may complete the block, and then no byte of BUF is unspecified. -/
theorem absorb_indistinguishable (hact : s.state = .active) (b : Byte) :
    Indistinguishable (absorb b s) (absorb b s') := by
  have hbyte : ∀ k, k ≤ s.bufLen.toNat → bufByte (absorb b s) k = bufByte (absorb b s') k := by
    intro k hk
    rw [absorb_bufByte, absorb_bufByte, ← h.bufLen]
    split
    · rfl
    · exact h.tail hact k (by omega)
  have hhash : (absorb b s).h = (absorb b s').h := by
    rw [absorb_h, absorb_h, ← h.bufLen, ← active_hash_eq h hact]
    split
    · rw [buf_ext (s := absorb b s) (t := absorb b s') fun k hk => hbyte k (by omega)]
    · rfl
  have hbufLen : (absorb b s).bufLen = (absorb b s').bufLen := by
    apply BitVec.eq_of_toNat_eq
    rw [absorb_bufLen, absorb_bufLen, h.bufLen]
  exact {
    state := by simpa using h.state
    bufLen := hbufLen
    total := by simpa using h.total
    err := by simpa using h.err
    cause := by simpa using h.cause
    data := by simpa using h.data
    faulted := by simpa using h.faulted
    pending := by simpa using h.pending
    response := by simpa using h.response
    hash := fun _ => hhash
    tail := fun _ k hk => hbyte k (by rw [absorb_bufLen] at hk; omega) }

/-- The blocks FINISH compresses read BUF below BUFLEN only. -/
theorem markedTail_eq (hact : s.state = .active) : markedTail s = markedTail s' := by
  apply Vector.ext
  intro k hk
  rw [markedTail_getElem s hk, markedTail_getElem s' hk, ← h.bufLen]
  split
  · exact h.tail hact k ‹_›
  · rfl

theorem finalBlock_eq (hact : s.state = .active) : finalBlock s = finalBlock s' := by
  apply Vector.ext
  intro k hk
  rw [finalBlock_getElem s hk, finalBlock_getElem s' hk]
  simp only [h.bufLen, h.total, markedTail_eq h hact]

theorem padAndCompress_h_eq (hact : s.state = .active) : (padAndCompress s).h = (padAndCompress s').h := by
  rw [padAndCompress_h, padAndCompress_h, h.bufLen, active_hash_eq h hact, markedTail_eq h hact, finalBlock_eq h hact]

theorem doFinish_indistinguishable : Indistinguishable (doFinish s) (doFinish s') := by
  rcases doFinish_cases s with ⟨hs, hd⟩ | ⟨hact, hd⟩ <;> rw [hd]
  · have hd' : doFinish s' = raiseEngineError .finishState s' := by simp [doFinish, ← h.state, hs]
    rw [hd']
    exact raiseEngineError_indistinguishable h _
  · rw [doFinish_of_active (h.state ▸ hact)]
    exact {
      state := rfl
      bufLen := rfl
      total := by simpa using h.total
      err := by simpa using h.err
      cause := by simpa using h.cause
      data := by simpa using h.data
      faulted := by simpa using h.faulted
      pending := by simpa using h.pending
      response := by simpa using h.response
      hash := fun _ => padAndCompress_h_eq h hact
      tail := fun hdone => by cases hdone }

end

theorem absorbAll_indistinguishable {s s' : State} (h : Indistinguishable s s') (hact : s.state = .active)
    (bs : List Byte) : Indistinguishable (absorbAll bs s) (absorbAll bs s') := by
  induction bs generalizing s s' with
  | nil => exact h
  | cons b bs ih => exact ih (absorb_indistinguishable h hact b) (by rw [absorb_state, hact])

theorem doUpdate_indistinguishable {s s' : State} (h : Indistinguishable s s') (n : BitVec 3) :
    Indistinguishable (doUpdate n s) (doUpdate n s') := by
  rcases doUpdate_cases s n with ⟨hs, hd⟩ | ⟨hact, hlen, hd⟩ | ⟨hact, hlen, hd⟩ <;> rw [hd]
  · have hd' : doUpdate n s' = raiseEngineError .updateState s' := by simp [doUpdate, ← h.state, hs]
    rw [hd']
    exact raiseEngineError_indistinguishable h _
  · have hd' : doUpdate n s' = raiseEngineError .lengthOverflow s' := by
      simp [doUpdate, ← h.state, ← h.total, hact, hlen]
    rw [hd']
    exact raiseEngineError_indistinguishable h _
  · have hd' : doUpdate n s' = absorbAll (lanes n s.data) { s' with total := s.total + n.zeroExtend 64 } := by
      simp [doUpdate, ← h.state, h.total, h.data, hact, h.total ▸ Nat.not_lt.mpr hlen]
    rw [hd']
    exact absorbAll_indistinguishable (total_indistinguishable h (s.total + n.zeroExtend 64)) hact _

theorem completeCmd_indistinguishable {s s' : State} (h : Indistinguishable s s') (c : Except Reject Command) :
    Indistinguishable (completeCmd c s) (completeCmd c s') := by
  refine respond_indistinguishable ?_ _
  unfold issue
  rw [← h.err]
  split
  · exact h
  · cases c with
    | error _ => exact raiseEngineError_indistinguishable h _
    | ok k =>
      cases k with
      | start => exact doStart_indistinguishable h
      | update n => exact doUpdate_indistinguishable h n
      | finish => exact doFinish_indistinguishable h

/-! ### Instructions, events and steps -/

/-- Both outcomes are next states that are indistinguishable. -/
def IndistinguishableNext (o o' : Host.Outcome State Fault Refusal) : Prop :=
  ∃ t t', o = .next t ∧ o' = .next t' ∧ Indistinguishable t t'

theorem exec_indistinguishable {s s' : State} (h : Indistinguishable s s') (i : Instr) :
    IndistinguishableNext (exec i s) (exec i s') := by
  cases i with
  | start => exact ⟨_, _, exec_start s, exec_start s', completeCmd_indistinguishable h _⟩
  | update n => exact ⟨_, _, exec_update n s, exec_update n s', completeCmd_indistinguishable h _⟩
  | finish => exact ⟨_, _, exec_finish s, exec_finish s', completeCmd_indistinguishable h _⟩
  | wrCmd v => exact ⟨_, _, exec_wrCmd v s, exec_wrCmd v s', completeCmd_indistinguishable h _⟩
  | wrData v =>
    exact ⟨_, _, exec_wrData v s, exec_wrData v s', respond_indistinguishable (data_indistinguishable h v) _⟩
  | rdData =>
    refine ⟨_, _, exec_rdData s, exec_rdData s', ?_⟩
    rw [h.data]
    exact respond_indistinguishable h _
  | rdStatus =>
    have hstatus : statusWord s = statusWord s' := by rw [statusWord, statusWord, h.bufLen, h.cause, h.err, h.state]
    refine ⟨_, _, exec_rdStatus s, exec_rdStatus s', ?_⟩
    rw [hstatus]
    exact respond_indistinguishable h _
  | rdLenLo =>
    refine ⟨_, _, exec_rdLenLo s, exec_rdLenLo s', ?_⟩
    rw [h.total]
    exact respond_indistinguishable h _
  | rdLenHi =>
    refine ⟨_, _, exec_rdLenHi s, exec_rdLenHi s', ?_⟩
    rw [h.total]
    exact respond_indistinguishable h _
  | rdDigest k =>
    have hreadable : digestReadable s' = digestReadable s := by rw [digestReadable, digestReadable, h.state, h.err]
    refine ⟨_, _, exec_rdDigest k s, exec_rdDigest k s', ?_⟩
    rw [hreadable]
    split
    next hr =>
      have hidle : s.state ≠ .idle := fun hs => by simp [digestReadable, hs] at hr
      rw [h.hash hidle]
      exact respond_indistinguishable h _
    next => exact raiseBusError_indistinguishable h

theorem serveRequest_indistinguishable {s s' : State} (h : Indistinguishable s s') (r : BusRequest) :
    IndistinguishableNext (serveRequest r s) (serveRequest r s') := by
  unfold serveRequest
  cases decodeRequest r with
  | ok i => exact exec_indistinguishable h i
  | error _ => exact ⟨_, _, rfl, rfl, raiseBusError_indistinguishable h⟩

/-- The simulation: a step of either state answers, and they stay indistinguishable. -/
theorem step_indistinguishable {s s' : State} (h : Indistinguishable s s') :
    IndistinguishableNext (step s) (step s') := by
  cases hp : s.pending with
  | nil => exact ⟨_, _, step_nil hp, step_nil (h.pending ▸ hp), h⟩
  | cons e rest =>
    have hrest := pending_indistinguishable h rest
    cases e with
    | access r =>
      rw [step_access hp, step_access (h.pending ▸ hp)]
      exact serveRequest_indistinguishable hrest r
    | reset => exact ⟨_, _, step_reset hp, step_reset (h.pending ▸ hp), resetEngine_indistinguishable hrest⟩

theorem transcript_nil {k : Nat} {s : State} (h : s.pending = []) : transcript k s = [] := by
  cases k <;> simp [transcript, h]

theorem transcript_cons {k : Nat} {s t : State} {e : BusEvent} {rest : List BusEvent} (hp : s.pending = e :: rest)
    (h : step s = .next t) : transcript (k + 1) s = t.response :: transcript k t := by
  simp [transcript, hp, h]

theorem transcript_eq {s s' : State} (k : Nat) (h : Indistinguishable s s') : transcript k s = transcript k s' := by
  induction k generalizing s s' with
  | zero => rfl
  | succ k ih =>
    cases hp : s.pending with
    | nil => rw [transcript_nil hp, transcript_nil (h.pending ▸ hp)]
    | cons e rest =>
      obtain ⟨t, t', hs, hs', ht⟩ := step_indistinguishable h
      rw [transcript_cons hp hs, transcript_cons (h.pending ▸ hp) hs', ht.response, ih ht]

/-- Before the first START any H and any BUF will do. -/
theorem reset_indistinguishable (h : Hash) (b : Block) (p : List BusEvent) :
    Indistinguishable { State.reset with pending := p } { State.reset with h := h, buf := b, pending := p } :=
  ⟨rfl, rfl, rfl, rfl, rfl, rfl, rfl, rfl, rfl, fun hne => absurd rfl hne, fun hact => by cases hact⟩

/-- Settles O46, by the simulation `step_indistinguishable` and induction on the number of answers. -/
theorem unspecifiedStateIsUnobservable : Obligations.UnspecifiedStateIsUnobservable := by
  refine ⟨fun s s' t h hs => ?_, fun k _ _ h => transcript_eq k h, fun k h b p =>
    transcript_eq k (reset_indistinguishable h b p)⟩
  obtain ⟨u, t', hu, hs', ht⟩ := step_indistinguishable h
  rw [hs] at hu
  cases hu
  exact ⟨t', hs', ht⟩

end Sys2Proof.Machine
end

section
/-! Proofs of the statements of 20_memory.md: each event one step (R57, R63), what accesses leave unchanged (R56), the byte
orders of the digest and of DATA (R60, R61), and the address decode (R50, R54). -/

namespace Sys2Proof.Machine

/-! ### One event, one step (R57, R63) -/

theorem serveRequest_ok {r : BusRequest} {i : Instr} (h : decodeRequest r = .ok i) (s : State) :
    serveRequest r s = exec i s := by
  rw [serveRequest, h]

theorem serveRequest_error {r : BusRequest} {e : Reject} (h : decodeRequest r = .error e) (s : State) :
    serveRequest r s = .next (busErrorState s) := by
  rw [serveRequest, h]
  rfl

/-- Settles O6: a step on an access is `serveRequest`, which runs what the request decodes to. -/
theorem stepServesTheHeadEvent : Obligations.StepServesTheHeadEvent := fun _ =>
  ⟨step_nil,
   fun _ _ _ hp hd => (step_access hp).trans (serveRequest_ok hd _),
   fun _ _ _ hp hd => (step_access hp).trans (serveRequest_error hd _),
   fun _ hp => step_reset hp⟩

/-! ### What accesses leave unchanged (R56) -/

/-- `t` is `s` but for the answer and the mark, and `i` run on `t` answers the same and leaves `t`. -/
def OnlyAnswers (i : Instr) (s t : State) : Prop :=
  t = { s with response := t.response, faulted := t.faulted } ∧ exec i t = .next t

theorem digestReadable_respond (r : BusResponse) (s : State) : digestReadable (respond r s) = digestReadable s := rfl

theorem digestReadable_raiseBusError (s : State) : digestReadable (raiseBusError s) = digestReadable s := rfl

/-- A digest read, answered or refused, looks at nothing that it changes. -/
theorem exec_rdDigest_onlyAnswers {k : BitVec 3} {s t : State} (h : exec (.rdDigest k) s = .next t) :
    OnlyAnswers (.rdDigest k) s t := by
  rw [exec_rdDigest] at h
  split at h <;> cases h
  next hr => exact ⟨rfl, by rw [exec_rdDigest, digestReadable_respond, if_pos hr]; rfl⟩
  next hr => exact ⟨rfl, by rw [exec_rdDigest, digestReadable_raiseBusError, if_neg hr]; rfl⟩

theorem exec_read_onlyAnswers {i : Instr} {s t : State} (hi : readsRegister i = true) (h : exec i s = .next t) :
    OnlyAnswers i s t := by
  cases i with
  | start | update | finish | wrCmd | wrData => cases hi
  | rdData | rdStatus | rdLenLo | rdLenHi => cases h; exact ⟨rfl, rfl⟩
  | rdDigest k => exact exec_rdDigest_onlyAnswers h

/-- Every instruction that executes a command word is a CMD write, and no CMD write changes DATA. -/
theorem exec_command_data {i : Instr} {s t : State} (hi : executesCommand i = true) (h : exec i s = .next t) :
    t.data = s.data := by
  cases i with
  | start | update | finish | wrCmd => cases h; exact completeCmd_data s _
  | wrData | rdData | rdStatus | rdLenLo | rdLenHi | rdDigest => cases hi

/-- Settles O31: a read changes the answer and the mark only, and its value depends on neither. -/
theorem sideEffectsOfAccesses : Obligations.SideEffectsOfAccesses := by
  refine ⟨fun i s t => exec_read_onlyAnswers, fun v s t h => ?_, fun i s t => exec_command_data⟩
  rw [exec_wrData] at h
  cases h
  rfl

/-! ### The byte order of the digest (R60) -/

/-- Byte j of BE32bytes, counted from the most significant, is bits 31-8j : 24-8j. -/
theorem be32Bytes_getD (w : Word) {j : Nat} (hj : j < 4) : (be32Bytes w).getD j 0 = w.extractLsb' (24 - 8 * j) 8 := by
  interval_cases j <;> rfl

theorem flatMap_be32Bytes_length (ws : List Word) : (ws.flatMap be32Bytes).length = 4 * ws.length := by
  induction ws with
  | nil => rfl
  | cons w ws ih =>
    have hlen : (be32Bytes w).length = 4 := rfl
    rw [List.flatMap_cons, List.length_append, ih, List.length_cons, hlen]
    omega

/-- In words laid out byte by byte, byte 4i + j is byte j of word i. -/
theorem flatMap_be32Bytes_getD (ws : List Word) {i j : Nat} (hi : i < ws.length) (hj : j < 4) :
    (ws.flatMap be32Bytes).getD (4 * i + j) 0 = (be32Bytes ws[i]).getD j 0 := by
  induction ws generalizing i with
  | nil => cases hi
  | cons w ws ih =>
    have hlen : (be32Bytes w).length = 4 := rfl
    rw [List.flatMap_cons]
    cases i with
    | zero => rw [List.getD_append _ _ _ _ (by omega), Nat.mul_zero, Nat.zero_add, List.getElem_cons_zero]
    | succ i =>
      rw [List.getD_append_right _ _ _ _ (by omega), hlen, List.getElem_cons_succ, ← ih (Nat.lt_of_succ_lt_succ hi)]
      congr 1
      omega

theorem digestBytes_length (h : Hash) : (digestBytes h).length = 32 := by
  rw [digestBytes, flatMap_be32Bytes_length, Vector.length_toList]

theorem digestBytes_getD (h : Hash) {i j : Nat} (hi : i < 8) (hj : j < 4) :
    (digestBytes h).getD (4 * i + j) 0 = h[i].extractLsb' (24 - 8 * j) 8 := by
  rw [digestBytes, flatMap_be32Bytes_getD _ (by simpa using hi) hj, be32Bytes_getD _ hj, Vector.getElem_toList]

/-- A digest read in DONE with ERR = 0 answers the whole word (R167). -/
theorem exec_rdDigest_of_done (i : BitVec 3) {s : State} (hdone : s.state = .done) (herr : s.err = false) :
    exec (.rdDigest i) s = .next (respond (.okRead (digestWord s.h i)) s) := by
  rw [exec_rdDigest, if_pos (by simp [digestReadable, hdone, herr])]

/-- Settles O56, from the bytes of words laid out in order. -/
theorem digestByteOrder : Obligations.DigestByteOrder :=
  ⟨digestBytes_length,
   fun h _ hi _ hj => digestBytes_getD h hi hj,
   fun i _ hdone herr => exec_rdDigest_of_done i hdone herr⟩

/-! ### The lanes of DATA (R61) -/

theorem lanes_getElem (n : BitVec 3) (d : Word) {k : Nat} (hk : k < (lanes n d).length) :
    (lanes n d)[k] = lane d k := by
  simp [lanes]

theorem lanes_getD (n : BitVec 3) (d : Word) {k : Nat} (hk : k < n.toNat) : (lanes n d).getD k 0 = lane d k := by
  rw [List.getD_eq_getElem _ _ (by rwa [lanes_length]), lanes_getElem]

/-- UPDATE n takes the lanes below n only. -/
theorem lanes_congr {n : BitVec 3} {d d' : Word} (h : ∀ k, k < n.toNat → lane d k = lane d' k) :
    lanes n d = lanes n d' :=
  List.map_congr_left fun k hk => h k (List.mem_range.mp hk)

/-- A word is its four lanes in stream order. -/
theorem be32_lanes (d : Word) : be32 (lane d 0) (lane d 1) (lane d 2) (lane d 3) = d := by
  apply BitVec.eq_of_toNat_eq
  simp only [be32_toNat, lane, BitVec.extractLsb'_toNat, Nat.shiftRight_eq_div_pow]
  have := d.isLt
  omega

/-- Absorb does not look at DATA. -/
theorem absorb_withData (b : Byte) (s : State) (d : Word) :
    absorb b { s with data := d } = { absorb b s with data := d } := by
  unfold absorb; dsimp only; split <;> rfl

theorem absorbAll_withData (bs : List Byte) (s : State) (d : Word) :
    absorbAll bs { s with data := d } = { absorbAll bs s with data := d } := by
  induction bs generalizing s with
  | nil => rfl
  | cons b bs ih => rw [absorbAll_cons, absorbAll_cons, absorb_withData, ih]

/-- The word of an UPDATE with a count up to 4 is legal (R73). -/
theorem updateCommand_of_le {n : BitVec 3} (hn : n.toNat ≤ 4) : updateCommand n = .ok (.update n) := if_pos hn

/-- With ERR = 0 a legal word is its command (R100). -/
theorem completeCmd_ok {s : State} (herr : s.err = false) (k : Command) :
    completeCmd (.ok k) s = respond .okWrite (doCommand k s) := by
  rw [completeCmd, issue, herr]
  rfl

section
variable {n : BitVec 3} {s : State} {d : Word} (h : lanes n d = lanes n s.data)
include h

theorem doUpdate_withData : doUpdate n { s with data := d } = { doUpdate n s with data := d } := by
  rcases doUpdate_cases s n with ⟨hs, hd⟩ | ⟨hs, hlen, hd⟩ | ⟨hs, hlen, hd⟩ <;> rw [hd]
  · simp [doUpdate, hs, raiseEngineError]
  · simp [doUpdate, hs, hlen, raiseEngineError]
  · rw [← absorbAll_withData, ← h]
    simp [doUpdate, hs, Nat.not_lt.mpr hlen]

/-- An UPDATE on a DATA with the same lanes does the same, but for DATA itself. -/
theorem completeCmd_update_withData (hn : n.toNat ≤ 4) :
    completeCmd (updateCommand n) { s with data := d } = { completeCmd (updateCommand n) s with data := d } := by
  rw [updateCommand_of_le hn]
  rcases Bool.eq_false_or_eq_true s.err with herr | herr
  · simp [completeCmd, issue, herr, respond]
  · rw [completeCmd_ok herr, completeCmd_ok (s := { s with data := d }) herr]
    exact congrArg (respond .okWrite) (doUpdate_withData h)

end

/-- A word fed by UPDATE 4 at a block-word boundary is that word of the block. -/
theorem blockWord_absorbAll_lanes {s : State} {j : Fin 16} (hj : s.bufLen.toNat = 4 * j.val) (d : Word) :
    blockWord (absorbAll (lanes 4 d) s).buf j = d := by
  have hlen : (lanes 4 d).length = 4 := lanes_length 4 d
  have hbyte : ∀ k, (hk : k < 4) → (absorbAll (lanes 4 d) s).buf[4 * j.val + k] = lane d k := by
    intro k hk
    have hstored := absorbAll_bufByte_stored (lanes 4 d) s (by omega) k (by omega)
    rw [hj, Nat.mod_eq_of_lt (by omega), bufByte_of_lt _ (by omega), lanes_getElem] at hstored
    exact hstored
  calc blockWord (absorbAll (lanes 4 d) s).buf j
      = be32 (lane d 0) (lane d 1) (lane d 2) (lane d 3) := by
        rw [← hbyte 0 (by omega), ← hbyte 1 (by omega), ← hbyte 2 (by omega), ← hbyte 3 (by omega)]; rfl
    _ = d := be32_lanes d

/-- Settles O57: an UPDATE sees DATA through `lanes` only, and absorbs its bytes from BUF[BUFLEN] on. -/
theorem dataLaneOrder : Obligations.DataLaneOrder := by
  refine ⟨fun n d _ => ⟨lanes_length n d, fun k hk => lanes_getD n d hk⟩, ?_, ?_⟩
  · intro n s d hn hlanes t h
    rw [exec_update] at h ⊢
    cases h
    exact congrArg _ (completeCmd_update_withData (lanes_congr hlanes) hn)
  · intro s t j herr hact hlen hj h
    have hfour : (4 : BitVec 3).toNat ≤ 4 := Nat.le_refl 4
    have hok : commandSucceeds s (.update 4) := ⟨hact, hfour, hlen⟩
    rw [exec_update, updateCommand_of_le hfour, completeCmd_ok herr, doCommand, doUpdate_of_succeeds hok] at h
    cases h
    exact blockWord_absorbAll_lanes (s := { s with total := s.total + (4 : BitVec 3).zeroExtend 64 }) hj s.data

/-! ### The address decode (R50, R54) -/

theorem windowOffset_self (base : Nat) (off : BitVec 6) : windowOffset base (base + off.toNat) = some off := by
  have := off.isLt
  rw [windowOffset_eq, if_pos (by omega), Nat.add_sub_cancel_left, BitVec.ofNat_toNat, BitVec.setWidth_eq]

theorem windowOffset_outside {base addr : Nat} (h : addr < base ∨ base + 0x40 ≤ addr) :
    windowOffset base addr = none := by
  rw [windowOffset_eq, if_neg (by omega)]

/-- Windows at two aligned bases are the same or apart. -/
theorem windowOffset_of_other_base {b base : Nat} (hb : b % 0x40 = 0) (hbase : base % 0x40 = 0) (hne : b ≠ base)
    (off : BitVec 6) : windowOffset b (base + off.toNat) = none := by
  have := off.isLt
  exact windowOffset_outside (by omega)

/-- An engine's window is reached at its index, since the windows before it do not hold the address. -/
theorem locate_window {es : List Engine} (haligned : ∀ g ∈ es, g.base % 0x40 = 0)
    (hnodup : (es.map Engine.base).Nodup) {k : Nat} {g : Engine} (hk : es[k]? = some g) (off : BitVec 6) :
    locate (g.base + off.toNat) es = some (k, off) := by
  induction es generalizing k with
  | nil => simp at hk
  | cons e es ih =>
    rw [List.map_cons, List.nodup_cons] at hnodup
    obtain ⟨hfresh, hnodup⟩ := hnodup
    obtain ⟨he, haligned⟩ := List.forall_mem_cons.mp haligned
    cases k with
    | zero =>
      cases hk
      rw [locate, windowOffset_self]
    | succ k =>
      have hg : g ∈ es := List.mem_of_getElem? hk
      have hne : e.base ≠ g.base := fun heq => hfresh (heq ▸ List.mem_map_of_mem hg)
      rw [locate, windowOffset_of_other_base he (haligned g hg) hne, ih haligned hnodup hk]
      rfl

theorem locate_outside {es : List Engine} {addr : Nat} (h : ∀ g ∈ es, addr < g.base ∨ g.base + 0x40 ≤ addr) :
    locate addr es = none := by
  induction es with
  | nil => rfl
  | cons e es ih =>
    obtain ⟨he, hes⟩ := List.forall_mem_cons.mp h
    rw [locate, windowOffset_outside he, ih hes]
    rfl

/-- Settles O59: aligned and distinct bases have windows apart, so only the engine's own window holds the address. -/
theorem addressDecode : Obligations.AddressDecode := by
  refine ⟨fun es hwf k g hk off => ?_, fun es addr h => locate_outside h⟩
  obtain ⟨-, haligned, hnodup⟩ := (platformWellFormed_iff es).mp hwf
  exact locate_window haligned hnodup hk off

end Sys2Proof.Machine
end

section
/-! Proofs of the statements of 30_encoding.md about both formats: the command words (R71 to R75), the access descriptors
(R78), their words in the opcode table's numbering, and the step that serves an encoded instruction (R79). -/

namespace Sys2Proof.Machine

/-! ### The command words (R71 to R75) -/

/-- The decoder reads every well-formed command from its word. -/
theorem decodeCmd_encodeCmd {k : Command} (h : WellFormed k.instr) : decodeCmd (encodeCmd k) = .ok k := by
  cases k with
  | start => rfl
  | update n => revert n; decide
  | finish => rfl

/-- A command word is legal only as the word of a well-formed command: RSV, OP and N are the command's. -/
theorem decodeCmd_ok {w : Word} {k : Command} (h : decodeCmd w = .ok k) : WellFormed k.instr ∧ w = encodeCmd k := by
  unfold decodeCmd at h
  rw [← fields_append w]
  split_ifs at h with hrsv hstart hn hupdate hn hfinish hn <;> cases h
  · rw [not_not.mp hrsv, hstart, hn]; exact ⟨rfl, rfl⟩
  · rw [not_not.mp hrsv, hupdate]; exact ⟨decide_eq_true hn, rfl⟩
  · rw [not_not.mp hrsv, hfinish, hn]; exact ⟨rfl, rfl⟩

theorem decodeCmd_ok_iff {w : Word} {k : Command} : decodeCmd w = .ok k ↔ WellFormed k.instr ∧ w = encodeCmd k :=
  ⟨decodeCmd_ok, fun ⟨hk, hw⟩ => hw ▸ decodeCmd_encodeCmd hk⟩

/-- The counts of an UPDATE (R72). -/
theorem count_cases : ∀ n : BitVec 3, n.toNat ≤ 4 → n = 0 ∨ n = 1 ∨ n = 2 ∨ n = 3 ∨ n = 4 := by decide

theorem fieldRsv_and (w m : Word) : fieldRsv (w &&& m) = fieldRsv w &&& fieldRsv m := BitVec.extractLsb'_and
theorem fieldOp_and (w m : Word) : fieldOp (w &&& m) = fieldOp w &&& fieldOp m := BitVec.extractLsb'_and

/-- A mask of all ones leaves a word as it is (the rows of R74 that have no operand). -/
theorem and_fullMask (w : Word) : w &&& 0xFFFFFFFF = w := BitVec.and_allOnes

/-- UPDATE's match and mask fix RSV and OP and leave N open. -/
theorem updateMask_iff (w : Word) : w &&& 0xFFFFFF8F = 0x00000002 ↔ w = encodeCmd (.update (fieldN w)) := by
  constructor
  · intro h
    have hrsv : fieldRsv w = 0 := by
      have := congrArg fieldRsv h
      rw [fieldRsv_and] at this
      exact BitVec.and_allOnes.symm.trans this
    have hop : fieldOp w = 0x2 := by
      have := congrArg fieldOp h
      rw [fieldOp_and] at this
      exact BitVec.and_allOnes.symm.trans this
    conv_lhs => rw [← fields_append w, hrsv, hop]
    rfl
  · intro h
    rw [h]
    generalize fieldN w = n
    revert n
    decide

/-- The words that decode to an UPDATE are those with its match and mask and N at most 4. -/
theorem decodeCmd_update_iff_mask (w : Word) :
    (∃ n, decodeCmd w = .ok (.update n)) ↔ w &&& 0xFFFFFF8F = 0x00000002 ∧ (fieldN w).toNat ≤ 4 := by
  rw [updateMask_iff]
  constructor
  · rintro ⟨n, h⟩
    obtain ⟨hn, rfl⟩ := decodeCmd_ok h
    revert n
    decide
  · rintro ⟨hw, hn⟩
    exact ⟨fieldN w, decodeCmd_ok_iff.mpr ⟨decide_eq_true hn, hw⟩⟩

/-- Settles O2: the legal words are the words of the well-formed commands, of which UPDATE has five. -/
theorem exactlySevenLegalCommandWords : Obligations.ExactlySevenLegalCommandWords := by
  refine ⟨fun w c => ⟨fun h => ?_, ?_⟩, fun w => ⟨?_, ?_, decodeCmd_update_iff_mask w⟩, ?_⟩
  · obtain ⟨hc, rfl⟩ := decodeCmd_ok h
    cases c with
    | start => decide
    | update n => obtain rfl | rfl | rfl | rfl | rfl := count_cases n (of_decide_eq_true hc) <;> decide
    | finish => decide
  · rintro (⟨rfl, rfl⟩ | ⟨rfl, rfl⟩ | ⟨rfl, rfl⟩ | ⟨rfl, rfl⟩ | ⟨rfl, rfl⟩ | ⟨rfl, rfl⟩ | ⟨rfl, rfl⟩) <;> rfl
  · rw [and_fullMask, decodeCmd_ok_iff]
    exact and_iff_right rfl
  · rw [and_fullMask, decodeCmd_ok_iff]
    exact and_iff_right rfl
  · simp only [List.forall_mem_cons]
    exact ⟨⟨.badCount, by decide⟩, ⟨.badCount, by decide⟩, ⟨.badCount, by decide⟩, by simp⟩

/-- The word of a well-formed command has none of the faults of R75. -/
theorem not_illegalWord_encodeCmd {k : Command} (h : WellFormed k.instr) : ¬ IllegalWord (encodeCmd k) := by
  unfold IllegalWord
  cases k with
  | start | finish => decide
  | update n => revert n; decide

/-- The decoder's rejections are the field conditions of R75. -/
theorem decodeCmd_error_iff (w : Word) : (∃ r, decodeCmd w = .error r) ↔ IllegalWord w := by
  constructor
  · rintro ⟨r, h⟩
    unfold decodeCmd at h
    split_ifs at h with hrsv hstart hn hupdate hn hfinish hn
    · exact .inl hrsv
    · exact .inr (.inr (.inl ⟨hstart, hn⟩))
    · exact .inr (.inr (.inr (.inr ⟨hupdate, not_le.mp hn⟩)))
    · exact .inr (.inr (.inr (.inl ⟨hfinish, hn⟩)))
    · exact .inr (.inl ⟨hstart, hupdate, hfinish⟩)
  · intro h
    cases hd : decodeCmd w with
    | error r => exact ⟨r, rfl⟩
    | ok k =>
      obtain ⟨hk, rfl⟩ := decodeCmd_ok hd
      exact absurd h (not_illegalWord_encodeCmd hk)

/-- With ERR = 0 a word that decodes to no command is the ILLEGAL_CMD error entry (R75, 60_exceptions.md R206). -/
theorem exec_wrCmd_of_error {w : Word} {r : Reject} {s : State} (herr : s.err = false) (h : decodeCmd w = .error r) :
    exec (.wrCmd w) s = .next (errorState .illegalCmd s) := by
  rw [exec_wrCmd, h, completeCmd, issue, herr]
  rfl

/-- Settles O3: the decoder rejects exactly the illegal words, and a rejected word is one error entry. -/
theorem illegalWordsRaiseIllegalCmd : Obligations.IllegalWordsRaiseIllegalCmd := by
  refine ⟨decodeCmd_error_iff, fun w s herr hw => ?_, .inr (.inl (by decide))⟩
  obtain ⟨r, hr⟩ := (decodeCmd_error_iff w).mpr hw
  exact exec_wrCmd_of_error herr hr

/-! ### The access descriptors (R78) -/

/-- A descriptor is `dir || off`. -/
theorem descriptor_append : ∀ d : BitVec 7, BitVec.ofBool (descriptorIsWrite d) ++ descriptorOffset d = d := by decide

/-- A read descriptor carries no value. -/
theorem decodeAccess_read_value {d : BitVec 7} (h : descriptorIsWrite d = false) (v : Word) :
    decodeAccess d v = decodeAccess d 0 := by
  simp [decodeAccess, h]

theorem request_read {d : BitVec 7} (h : descriptorIsWrite d = false) (v : Word) :
    (Code.access d v).request = .read 32 (descriptorOffset d) := by
  simp [Code.request, h, Config.accessBits]

theorem request_write {d : BitVec 7} (h : descriptorIsWrite d = true) (v : Word) :
    (Code.access d v).request = .write 32 (descriptorOffset d) v := by
  simp [Code.request, h, Config.accessBits]

/-- The access that a descriptor names is admitted when the descriptor is, and asks for the same instruction (R79). -/
theorem decodeRequest_request_access (d : BitVec 7) (v : Word) :
    decodeRequest (Code.access d v).request = decodeAccess d v := by
  have happ := descriptor_append d
  cases hdir : descriptorIsWrite d <;> rw [hdir] at happ
  · rw [decodeAccess_read_value hdir, request_read hdir]
    exact congrArg (decodeAccess · 0) happ
  · rw [request_write hdir]
    exact congrArg (decodeAccess · v) happ

/-- The rows of R78 by match and mask: the descriptor `d`, with value `v` if it is a write, is the instruction `i`. -/
def DescriptorRow (d : BitVec 7) (v : Word) (i : Instr) : Prop :=
  (d &&& 0x7F = 0x40 ∧ i = .wrCmd v) ∨ (d &&& 0x7F = 0x44 ∧ i = .wrData v) ∨ (d &&& 0x7F = 0x04 ∧ i = .rdData) ∨
    (d &&& 0x7F = 0x08 ∧ i = .rdStatus) ∨ (d &&& 0x7F = 0x10 ∧ i = .rdLenLo) ∨ (d &&& 0x7F = 0x14 ∧ i = .rdLenHi) ∨
    (d &&& 0x63 = 0x20 ∧ i = .rdDigest (d.extractLsb' 2 3))

/-- Match and mask of RD_DIGEST: a read, aligned, at an offset from 0x20 on. -/
theorem digestMask_iff : ∀ d : BitVec 7, d &&& 0x63 = 0x20 ↔
    descriptorIsWrite d = false ∧ (descriptorOffset d).extractLsb' 0 2 = 0 ∧ 0x20 ≤ (descriptorOffset d).toNat := by decide

/-- off[4:2] of a descriptor, which RD_DIGEST takes as its index. -/
theorem descriptorOffset_index : ∀ d : BitVec 7, (descriptorOffset d).extractLsb' 2 3 = d.extractLsb' 2 3 := by decide

theorem decodeAccess_aligned {d : BitVec 7} {v : Word} {i : Instr} (h : decodeAccess d v = .ok i) :
    (descriptorOffset d).extractLsb' 0 2 = 0 := by
  by_contra hal
  rw [decodeAccess, if_pos hal] at h
  cases h

/-- What decodes is a row of R78. -/
theorem descriptorRow_of_decodeAccess {d : BitVec 7} {v : Word} {i : Instr} (h : decodeAccess d v = .ok i) :
    DescriptorRow d v i := by
  have hal := decodeAccess_aligned h
  have happ := descriptor_append d
  rw [← decodeRequest_request_access] at h
  cases hdir : descriptorIsWrite d <;> rw [hdir] at happ
  · rw [request_read hdir] at h
    obtain ⟨-, ⟨hoff, rfl⟩ | ⟨hoff, rfl⟩ | ⟨hoff, rfl⟩ | ⟨hoff, rfl⟩ | ⟨hoff, rfl⟩⟩ := decodeRequest_read_ok h
    · rw [← happ, hoff]; exact .inr (.inr (.inl ⟨rfl, rfl⟩))
    · rw [← happ, hoff]; exact .inr (.inr (.inr (.inl ⟨rfl, rfl⟩)))
    · rw [← happ, hoff]; exact .inr (.inr (.inr (.inr (.inl ⟨rfl, rfl⟩))))
    · rw [← happ, hoff]; exact .inr (.inr (.inr (.inr (.inr (.inl ⟨rfl, rfl⟩)))))
    · rw [descriptorOffset_index]
      exact .inr (.inr (.inr (.inr (.inr (.inr ⟨(digestMask_iff d).mpr ⟨hdir, hal, hoff⟩, rfl⟩)))))
  · rw [request_write hdir] at h
    obtain ⟨-, ⟨hoff, rfl⟩ | ⟨hoff, rfl⟩⟩ := decodeRequest_write_ok h
    · rw [← happ, hoff]; exact .inl ⟨rfl, rfl⟩
    · rw [← happ, hoff]; exact .inr (.inl ⟨rfl, rfl⟩)

/-- A mask of all ones leaves a descriptor as it is (the rows of R78 with one descriptor). -/
theorem eq_of_fullMask {d m : BitVec 7} (h : d &&& 0x7F = m) : d = m := BitVec.and_allOnes.symm.trans h

/-- Only 32-bit accesses at word-aligned offsets have a descriptor (20_memory.md R53). -/
theorem decodeRequest_of_badShape {width : Nat} {off : BitVec 6} (h : width ≠ 32 ∨ off.extractLsb' 0 2 ≠ 0#2) (v : Word) :
    (∃ e, decodeRequest (.read width off) = .error e) ∧ ∃ e, decodeRequest (.write width off v) = .error e := by
  by_cases hw : width = 32
  · have hal := h.resolve_left (not_not.mpr hw)
    exact ⟨⟨.misaligned, by simp [decodeRequest, decodeAccess, Config.accessBits, hw, hal]⟩,
      ⟨.misaligned, by simp [decodeRequest, decodeAccess, Config.accessBits, hw, hal]⟩⟩
  · exact ⟨⟨.badWidth, if_pos hw⟩, ⟨.badWidth, if_pos hw⟩⟩

/-- An access that decodes to nothing is a bus error. -/
theorem serveRequest_of_not_ok {r : BusRequest} (h : ∀ i, decodeRequest r ≠ .ok i) (s : State) :
    serveRequest r s = .next (busErrorState s) := by
  cases hr : decodeRequest r with
  | ok i => exact absurd hr (h i)
  | error e => exact serveRequest_error hr s

/-! ### Decoding and encoding (R71 to R78) -/

theorem decode_encode {i : Instr} (hi : WellFormed i) : decode (encode i) = .ok i := by
  cases i with
  | start => rfl
  | update n => exact congrArg (Except.map Command.instr) (decodeCmd_encodeCmd (k := .update n) hi)
  | finish => rfl
  | wrCmd v | wrData v => rfl
  | rdData | rdStatus | rdLenLo | rdLenHi => rfl
  | rdDigest k => revert k; decide

theorem encode_command (k : Command) : encode k.instr = .command (encodeCmd k) := by cases k <;> rfl

theorem decode_command_ok {w : Word} {i : Instr} (h : decode (.command w) = .ok i) :
    ∃ k : Command, i = k.instr ∧ decodeCmd w = .ok k := by
  cases hw : decodeCmd w with
  | error r => rw [decode, hw] at h; cases h
  | ok k => rw [decode, hw] at h; cases h; exact ⟨k, rfl, rfl⟩

/-- The encoder's digest descriptor has off[4:2] in its place. -/
theorem digestDescriptor_eq : ∀ d : BitVec 7, d &&& 0x63 = 0x20 → 0b01#2 ++ d.extractLsb' 2 3 ++ 0b00#2 = d := by decide

/-- Every row of R78 is well formed and is its instruction's encoding. -/
theorem encode_of_descriptorRow {d : BitVec 7} {v : Word} {i : Instr} (h : DescriptorRow d v i) :
    WellFormed i ∧ encode i = (Code.access d v).canonical := by
  obtain ⟨hd, rfl⟩ | ⟨hd, rfl⟩ | ⟨hd, rfl⟩ | ⟨hd, rfl⟩ | ⟨hd, rfl⟩ | ⟨hd, rfl⟩ | ⟨hd, rfl⟩ := h
  · rw [eq_of_fullMask hd]; exact ⟨rfl, rfl⟩
  · rw [eq_of_fullMask hd]; exact ⟨rfl, rfl⟩
  · rw [eq_of_fullMask hd]; exact ⟨rfl, rfl⟩
  · rw [eq_of_fullMask hd]; exact ⟨rfl, rfl⟩
  · rw [eq_of_fullMask hd]; exact ⟨rfl, rfl⟩
  · rw [eq_of_fullMask hd]; exact ⟨rfl, rfl⟩
  · refine ⟨rfl, ?_⟩
    rw [encode, digestDescriptor_eq d hd, Code.canonical, ((digestMask_iff d).mp hd).1]
    rfl

/-- The value field of a read decodes to nothing of its own. -/
theorem decode_canonical (c : Code) : decode c.canonical = decode c := by
  cases c with
  | command w => rfl
  | access d v =>
    cases hdir : descriptorIsWrite d <;> simp only [Code.canonical, hdir, if_true, Bool.false_eq_true, if_false]
    exact (decodeAccess_read_value hdir v).symm

/-- A row of R78 decodes, for its encoding does and is the same code. -/
theorem decodeAccess_of_descriptorRow {d : BitVec 7} {v : Word} {i : Instr} (h : DescriptorRow d v i) :
    decodeAccess d v = .ok i := by
  obtain ⟨hwf, henc⟩ := encode_of_descriptorRow h
  calc decodeAccess d v
      = decode (Code.access d v).canonical := (decode_canonical (.access d v)).symm
    _ = decode (encode i) := by rw [henc]
    _ = .ok i := decode_encode hwf

theorem decodeAccess_ok_iff {d : BitVec 7} {v : Word} {i : Instr} : decodeAccess d v = .ok i ↔ DescriptorRow d v i :=
  ⟨descriptorRow_of_decodeAccess, decodeAccess_of_descriptorRow⟩

/-- Settles O1: the command words by their fields, the descriptors by the rows of R78. -/
theorem decodeAndEncodeAgree : Obligations.DecodeAndEncodeAgree := by
  refine ⟨fun i => decode_encode, fun c i h => ?_⟩
  cases c with
  | command w =>
    obtain ⟨k, rfl, hk⟩ := decode_command_ok h
    obtain ⟨hwf, rfl⟩ := decodeCmd_ok hk
    exact ⟨hwf, encode_command k⟩
  | access d v => exact encode_of_descriptorRow (descriptorRow_of_decodeAccess h)

/-- Settles O4: the decoder's rows, and what it rejects is served as a bus error. -/
theorem admittedDescriptors : Obligations.AdmittedDescriptors := by
  refine ⟨fun d v i => decodeAccess_ok_iff, fun off v => ⟨rfl, rfl⟩, fun width off v s h => ?_,
    fun r s h => serveRequest_of_not_ok h s⟩
  obtain ⟨⟨_, hread⟩, ⟨_, hwrite⟩⟩ := decodeRequest_of_badShape h v
  exact ⟨serveRequest_error hread s, serveRequest_error hwrite s⟩

/-! ### Serving an encoded instruction (R70, R79) -/

/-- A CMD write of a command's word is that command (R100). -/
theorem exec_wrCmd_of_ok {w : Word} {k : Command} (h : decodeCmd w = .ok k) (s : State) :
    exec (.wrCmd w) s = exec k.instr s := by
  rw [exec_wrCmd, h]
  cases k with
  | start | finish => rfl
  | update n => rw [Command.instr, exec_update, updateCommand_of_le (decodeCmd_update_le h)]

/-- The access that presents an encoded instruction runs it. -/
theorem serveRequest_request {c : Code} {i : Instr} (h : decode c = .ok i) (s : State) :
    serveRequest c.request s = exec i s := by
  cases c with
  | command w =>
    obtain ⟨k, rfl, hk⟩ := decode_command_ok h
    exact (serveRequest_ok rfl s).trans (exec_wrCmd_of_ok hk s)
  | access d v => exact serveRequest_ok ((decodeRequest_request_access d v).trans h) s

/-- Settles O7: the request of `encode i` runs what `encode i` decodes to. -/
theorem stepRunsTheEncodedInstruction : Obligations.StepRunsTheEncodedInstruction :=
  fun _ _ _ hi hp => (step_access hp).trans (serveRequest_request (decode_encode hi) _)

/-! ### Words in the opcode table's numbering -/

theorem decodeTableWord_some {nbits w : Nat} {i : Instr} (h : decodeTableWord nbits w = some i) :
    ∃ c, tableCode nbits w = some c ∧ decode c = .ok i := by
  unfold decodeTableWord at h
  split at h
  next => cases h
  next c hc =>
    split at h
    next j hj => cases h; exact ⟨c, hc, hj⟩
    next => cases h

theorem withFetchWord_of_tableCode {nbits w : Nat} {c : Code} (h : tableCode nbits w = some c) (s : State) :
    s.withFetchWord nbits w = { s with pending := .access c.request :: s.pending } := by
  rw [State.withFetchWord, tableRequest, h]
  rfl

/-- Settles O8: the word's code is placed as its request, which runs what the code decodes to. -/
theorem fetchedWordRunsItsInstruction : Obligations.FetchedWordRunsItsInstruction := by
  intro s nbits w i h
  obtain ⟨c, hc, hi⟩ := decodeTableWord_some h
  rw [withFetchWord_of_tableCode hc, step_access rfl]
  exact serveRequest_request hi s

/-- Settles O5: fourteen words, each decoded by evaluation. -/
theorem tableWordsDecode : Obligations.TableWordsDecode := by
  unfold Obligations.TableWordsDecode
  decide

end Sys2Proof.Machine
end

section
/-! The HASH program (30_encoding.md R80): what the host is answered while a whole digest computation and the reads after it are
served, one line of the program after the other. -/

namespace Sys2Proof.Machine

/-! ### Serving several events -/

/-- Serving one event for each answer in `as`, the machine comes from `s` to `t` and answers `as`. -/
structure Reaches (as : List BusResponse) (s t : State) : Prop where
  served : s.pending.length = as.length + t.pending.length
  answers : ∀ k, transcript (as.length + k) s = as ++ transcript k t
  run : ∀ k, Host.Core.run Sys2Proof.core (as.length + k) s = Host.Core.run Sys2Proof.core k t

theorem Reaches.refl (s : State) : Reaches [] s s :=
  ⟨by simp, fun k => by simp, fun k => by simp⟩

/-- One step on an event, which is then taken off the queue. -/
theorem Reaches.single {s t : State} {e : BusEvent} {rest : List BusEvent} (hp : s.pending = e :: rest)
    (hs : step s = .next t) (ht : t.pending = rest) : Reaches [t.response] s t := by
  refine ⟨?_, fun k => ?_, fun k => ?_⟩
  · rw [hp, ht, List.length_cons, List.length_singleton, Nat.add_comm]
  · rw [List.length_singleton, Nat.add_comm, transcript_cons hp hs, List.singleton_append]
  · rw [List.length_singleton, Nat.add_comm, run_succ hs]

theorem Reaches.trans {as bs : List BusResponse} {s t u : State} (h : Reaches as s t) (h' : Reaches bs t u) :
    Reaches (as ++ bs) s u := by
  have hlen : ∀ k, (as ++ bs).length + k = as.length + (bs.length + k) := fun k => by rw [List.length_append]; omega
  refine ⟨?_, fun k => ?_, fun k => ?_⟩
  · rw [h.served, h'.served, hlen]
  · rw [hlen, h.answers, h'.answers, List.append_assoc]
  · rw [hlen, h.run, h'.run]

/-! ### The lines of a computation (R79, R101 to R104) -/

/-- The message so far is `m`, no error has occurred, and the mark is `f`. -/
structure Computing (m : List Byte) (f : Bool) (s : State) : Prop where
  ingested : Ingested m s
  err : s.err = false
  faulted : s.faulted = f

/-- The computation over `m` is over without an error, and the mark is `f`. -/
structure Computed (m : List Byte) (f : Bool) (s : State) : Prop where
  finalized : Finalized m s
  err : s.err = false
  faulted : s.faulted = f

/-- The queue, the answer and DATA are no part of it. -/
theorem Computing.edges {m : List Byte} {f : Bool} {s : State} (h : Computing m f s) (p : List BusEvent) (r : BusResponse)
    (d : Word) : Computing m f { s with pending := p, response := r, data := d } := by
  obtain ⟨⟨hact, hlen, hmod, htail, hhash⟩, herr, hmark⟩ := h
  exact ⟨⟨hact, hlen, hmod, htail, hhash⟩, herr, hmark⟩

theorem computing_start {s : State} (herr : s.err = false) (p : List BusEvent) :
    Computing [] s.faulted (completeCmd (.ok .start) { s with pending := p }) := by
  rw [completeCmd_ok (s := { s with pending := p }) herr]
  exact ⟨(tracks_of_active rfl).mp (doStart_tracks (respond .okWrite { s with pending := p })), herr, rfl⟩

theorem Computing.update {m : List Byte} {f : Bool} {s : State} (h : Computing m f s) {n : BitVec 3} (hn : n.toNat ≤ 4)
    (hlen : (m ++ lanes n s.data).length ≤ Config.maxLen) :
    Computing (m ++ lanes n s.data) f (completeCmd (.ok (.update n)) s) := by
  obtain ⟨hing, herr, hmark⟩ := h
  rw [List.length_append, lanes_length, ← hing.totalLen] at hlen
  rw [completeCmd_ok herr, doCommand, doUpdate_of_succeeds ⟨hing.active, hn, hlen⟩]
  have htracks := (doUpdate_tracks hing hlen).congr (t := respond .okWrite _) rfl rfl rfl rfl rfl
  refine ⟨(tracks_of_active ?_).mp htracks, ?_, ?_⟩
  · simpa using hing.active
  · simpa using herr
  · simpa using hmark

theorem Computing.finish {m : List Byte} {f : Bool} {s : State} (h : Computing m f s) :
    Computed m f (completeCmd (.ok .finish) s) := by
  obtain ⟨hing, herr, hmark⟩ := h
  have hdone := doFinish_of_active hing.active
  have htracks := (doFinish_tracks hing).congr (t := respond .okWrite _) rfl rfl rfl rfl rfl
  rw [completeCmd_ok herr, doCommand]
  refine ⟨(tracks_of_done ?_).mp htracks, ?_, ?_⟩ <;> rw [hdone]
  · rfl
  · simpa using herr
  · simpa using hmark

/-- A command's line is the CMD write of its word (R79). -/
theorem commandLine_reaches {s : State} {k : Command} {rest : List BusEvent} (hk : WellFormed k.instr)
    (hp : s.pending = lineEvent (.instr k.instr) :: rest) :
    Reaches [.okWrite] s (completeCmd (.ok k) { s with pending := rest }) := by
  have hline : lineEvent (.instr k.instr) = .access (.write 32 0x00 (encodeCmd k)) := by
    rw [lineEvent, encode_command]; rfl
  rw [hline] at hp
  have hs := step_cmdWrite hp
  rw [decodeCmd_encodeCmd hk] at hs
  exact .single hp hs (completeCmd_pending _ _)

theorem wrDataLine_reaches {s : State} {v : Word} {rest : List BusEvent}
    (hp : s.pending = lineEvent (.instr (.wrData v)) :: rest) :
    Reaches [.okWrite] s { s with pending := rest, response := .okWrite, data := v } :=
  .single hp (step_access hp) rfl

theorem feedChunks_cons (c : Word × BitVec 3) (cs : List (Word × BitVec 3)) :
    feedChunks (c :: cs) = lineEvent (.instr (.wrData c.1)) :: lineEvent (.instr (.update c.2)) :: feedChunks cs := rfl

theorem chunksMessage_cons (c : Word × BitVec 3) (cs : List (Word × BitVec 3)) :
    chunksMessage (c :: cs) = lanes c.2 c.1 ++ chunksMessage cs := List.flatMap_cons

/-- `WR DATA, v` and `UPDATE n` append the first n bytes of v. -/
theorem feedGroup_reaches {m : List Byte} {f : Bool} {s : State} {v : Word} {n : BitVec 3} {rest : List BusEvent}
    (h : Computing m f s) (hn : n.toNat ≤ 4) (hlen : (m ++ lanes n v).length ≤ Config.maxLen)
    (hp : s.pending = lineEvent (.instr (.wrData v)) :: lineEvent (.instr (.update n)) :: rest) :
    ∃ t, Reaches [.okWrite, .okWrite] s t ∧ t.pending = rest ∧ Computing (m ++ lanes n v) f t := by
  have hupdate := commandLine_reaches (k := .update n) (decide_eq_true hn)
    (s := { s with pending := lineEvent (.instr (.update n)) :: rest, response := .okWrite, data := v }) rfl
  exact ⟨_, (wrDataLine_reaches hp).trans hupdate, completeCmd_pending _ _, (h.edges rest .okWrite v).update hn hlen⟩

/-- FEED, by its groups: each is answered OK twice. -/
theorem feedChunks_reaches (cs : List (Word × BitVec 3)) {m : List Byte} {f : Bool} {s : State} {rest : List BusEvent}
    (h : Computing m f s) (hn : ∀ c ∈ cs, c.2.toNat ≤ 4) (hlen : (m ++ chunksMessage cs).length ≤ Config.maxLen)
    (hp : s.pending = feedChunks cs ++ rest) :
    ∃ t, Reaches (List.replicate (2 * cs.length) .okWrite) s t ∧ t.pending = rest ∧
      Computing (m ++ chunksMessage cs) f t := by
  induction cs generalizing m s with
  | nil => exact ⟨s, .refl s, hp, by simpa [chunksMessage] using h⟩
  | cons c cs ih =>
    obtain ⟨hc, hcs⟩ := List.forall_mem_cons.mp hn
    rw [chunksMessage_cons, ← List.append_assoc] at hlen ⊢
    have hfirst : (m ++ lanes c.2 c.1).length ≤ Config.maxLen := by
      rw [List.length_append] at hlen; omega
    obtain ⟨t, hst, ht, hcomp⟩ := feedGroup_reaches h hc hfirst hp
    obtain ⟨u, htu, hu, hcomp'⟩ := ih hcomp hcs hlen ht
    exact ⟨u, hst.trans htu, hu, hcomp'⟩

theorem digestEvents_append (cs : List (Word × BitVec 3)) (rest : List BusEvent) :
    digestEvents cs ++ rest =
      lineEvent (.instr .start) :: (feedChunks cs ++ lineEvent (.instr .finish) :: rest) := by
  rw [digestEvents, List.append_assoc, List.append_assoc]; rfl

/-- START, the groups of a message and FINISH leave its digest, each write answered OK (40_digest_commands.md R109). -/
theorem digestEvents_reaches {cs : List (Word × BitVec 3)} {s : State} {rest : List BusEvent} (herr : s.err = false)
    (hn : ∀ c ∈ cs, c.2.toNat ≤ 4) (hlen : (chunksMessage cs).length ≤ Config.maxLen)
    (hp : s.pending = digestEvents cs ++ rest) :
    ∃ t, Reaches (List.replicate (2 + 2 * cs.length) .okWrite) s t ∧ t.pending = rest ∧
      Computed (chunksMessage cs) s.faulted t := by
  rw [digestEvents_append] at hp
  have hstart := commandLine_reaches (k := .start) rfl hp
  obtain ⟨t, hfeed, ht, hcomp⟩ := feedChunks_reaches cs (computing_start herr _) hn hlen (completeCmd_pending _ _)
  have hfinish := commandLine_reaches (k := .finish) (rest := rest) rfl ht
  have hanswers : List.replicate (2 + 2 * cs.length) BusResponse.okWrite =
      [.okWrite] ++ List.replicate (2 * cs.length) .okWrite ++ [.okWrite] := by
    rw [List.singleton_append, ← List.replicate_succ, ← List.replicate_succ', Nat.add_comm]
  rw [hanswers]
  exact ⟨_, (hstart.trans hfeed).trans hfinish, completeCmd_pending _ _, (hcomp.edges rest t.response t.data).finish⟩

/-! ### The digest reads -/

theorem rdDigestLine_reaches {s : State} {i : BitVec 3} {rest : List BusEvent} (hdone : s.state = .done)
    (herr : s.err = false) (hp : s.pending = lineEvent (.instr (.rdDigest i)) :: rest) :
    Reaches [.okRead (digestWord s.h i)] s { s with pending := rest, response := .okRead (digestWord s.h i) } :=
  .single hp ((stepRunsTheEncodedInstruction s (.rdDigest i) rest rfl hp).trans
    (exec_rdDigest_of_done i (s := { s with pending := rest }) hdone herr)) rfl

/-- Reads of digest words in DONE are answered with them, whatever their number and order. -/
theorem digestReads_reaches (is : List (BitVec 3)) {s : State} {rest : List BusEvent} (hdone : s.state = .done)
    (herr : s.err = false) (hp : s.pending = assemble (is.map fun i => .instr (.rdDigest i)) ++ rest) :
    ∃ t, Reaches (is.map fun i => .okRead (digestWord s.h i)) s t ∧ t.pending = rest ∧ t.faulted = s.faulted := by
  induction is generalizing s with
  | nil => exact ⟨s, .refl s, hp, rfl⟩
  | cons i is ih =>
    have hread := rdDigestLine_reaches hdone herr hp
    obtain ⟨t, hst, ht, hmark⟩ := ih
      (s := { s with pending := assemble (is.map fun i => .instr (.rdDigest i)) ++ rest,
                     response := .okRead (digestWord s.h i) }) hdone herr rfl
    exact ⟨t, hread.trans hst, ht, hmark⟩

/-- DIGEST0 to DIGEST7 are the eight words of H in order (20_memory.md R60). -/
theorem digestWords_toList (h : Hash) :
    ((List.range 8).map (BitVec.ofNat 3)).map (digestWord h) = h.toList := by
  apply List.ext_getElem
  · simp
  · intro i hi _
    have : i < 8 := by simpa using hi
    simp [digestWord, Nat.mod_eq_of_lt this]

/-! ### FEED as groups (R80) -/

/-- The groups of FEED: a DATA word and its count for every four bytes, and one for what is left. -/
def feedPieces : List Byte → List (Word × BitVec 3)
  | b0 :: b1 :: b2 :: b3 :: rest => (be32 b0 b1 b2 b3, 4) :: feedPieces rest
  | [b0, b1, b2] => [(be32 b0 b1 b2 0, 3)]
  | [b0, b1] => [(be32 b0 b1 0 0, 2)]
  | [b0] => [(be32 b0 0 0 0, 1)]
  | [] => []

theorem feed_eq_groups (bs : List Byte) : feed bs = (feedPieces bs).flatMap fun c => feedGroup c.1 c.2 := by
  induction bs using feedPieces.induct with
  | case1 b0 b1 b2 b3 rest ih => rw [feed, feedPieces, List.flatMap_cons, ih]
  | case2 | case3 | case4 | case5 => rfl

/-- No group takes more than the four bytes of DATA. -/
theorem feedPieces_count_le {bs : List Byte} : ∀ c ∈ feedPieces bs, c.2.toNat ≤ 4 := by
  induction bs using feedPieces.induct with
  | case1 b0 b1 b2 b3 rest ih => exact List.forall_mem_cons.mpr ⟨Nat.le_refl 4, ih⟩
  | case2 | case3 | case4 | case5 => simp [feedPieces]

/-- The lanes an UPDATE takes are the first bytes of DATA. -/
theorem lanes_eq_take {n : BitVec 3} (hn : n.toNat ≤ 4) (d : Word) : lanes n d = (be32Bytes d).take n.toNat := by
  have hbytes : be32Bytes d = (List.range 4).map (lane d) := rfl
  rw [hbytes, ← List.map_take, List.take_range, Nat.min_eq_left hn, lanes]

/-- FEED feeds the bytes it is given, and none of the bytes that fill up its last group. -/
theorem chunksMessage_feedPieces (bs : List Byte) : chunksMessage (feedPieces bs) = bs := by
  induction bs using feedPieces.induct with
  | case1 b0 b1 b2 b3 rest ih =>
    rw [feedPieces, chunksMessage_cons, ih, lanes_eq_take (n := 4) (by decide), be32Bytes_be32]; rfl
  | case2 b0 b1 b2 => rw [feedPieces, chunksMessage_cons, lanes_eq_take (n := 3) (by decide), be32Bytes_be32]; rfl
  | case3 b0 b1 => rw [feedPieces, chunksMessage_cons, lanes_eq_take (n := 2) (by decide), be32Bytes_be32]; rfl
  | case4 b0 => rw [feedPieces, chunksMessage_cons, lanes_eq_take (n := 1) (by decide), be32Bytes_be32]; rfl
  | case5 => rfl

theorem feed_length (bs : List Byte) : (feed bs).length = 2 * (feedPieces bs).length := by
  rw [feed_eq_groups]
  induction feedPieces bs with
  | nil => rfl
  | cons c cs ih => rw [List.flatMap_cons, List.length_append, ih, List.length_cons, Nat.mul_succ, Nat.add_comm]; rfl

/-- HASH is a digest computation over the groups of FEED and the reads of DIGEST. -/
theorem assemble_hashProgram (m : List Byte) :
    assemble (hashProgram m) = digestEvents (feedPieces m) ++ assemble digestReads := by
  simp only [hashProgram, digestEvents, feedChunks, assemble, feed_eq_groups, List.map_append]

/-- Settles O45: the computation leaves the digest, the reads answer its words, and nothing sets the mark. -/
theorem hashProgramReadsTheDigest : Obligations.HashProgramReadsTheDigest := by
  intro m s herr hmark hlen hp
  have hmsg := chunksMessage_feedPieces m
  obtain ⟨t, hst, ht, ⟨hfin, hterr, htmark⟩⟩ := digestEvents_reaches herr feedPieces_count_le (by rwa [hmsg])
    (hp.trans (assemble_hashProgram m))
  rw [hmsg] at hfin
  obtain ⟨u, htu, hu, humark⟩ := digestReads_reaches ((List.range 8).map (BitVec.ofNat 3)) hfin.done hterr
    (ht.trans (List.append_nil _).symm)
  have hwords : ((List.range 8).map (BitVec.ofNat 3)).map (fun i => BusResponse.okRead (digestWord t.h i)) =
      (sha256Words m).toList.map .okRead := by
    rw [← hfin.digest, ← digestWords_toList, List.map_map]; rfl
  rw [← feed_length] at hst
  rw [hwords] at htu
  have hall := hst.trans htu
  rw [hall.served, hu]
  exact ⟨(hall.answers 0).trans (List.append_nil _), u, hall.run 0, humark.trans (htmark.trans hmark)⟩

end Sys2Proof.Machine
end

section
/-! Proofs of the statements of 40_digest_commands.md about single commands: ExecCmd (R100), START (R101), UPDATE and Absorb
(R102, R103), FINISH (R104), what they leave unchanged, and the digest state machine (R110). -/

namespace Sys2Proof.Machine

/-! ### ExecCmd (R100) -/

section
variable {s : State}

/-- While ERR = 1 a CMD write is answered and does nothing. -/
theorem completeCmd_halted (herr : s.err = true) (c : Except Reject Command) : completeCmd c s = respond .okWrite s := by
  unfold completeCmd issue
  rw [if_pos herr]

theorem exec_wrCmd_of_halted (herr : s.err = true) (w : Word) : exec (.wrCmd w) s = .next (respond .okWrite s) := by
  rw [exec_wrCmd, completeCmd_halted herr]

/-- With ERR = 0 a well-formed command has its own effect and is answered OK. -/
theorem exec_command {k : Command} (hk : WellFormed k.instr) (herr : s.err = false) :
    exec k.instr s = .next (respond .okWrite (doCommand k s)) := by
  rw [← exec_wrCmd_of_ok (decodeCmd_encodeCmd hk), exec_wrCmd, decodeCmd_encodeCmd hk, completeCmd_ok herr]

/-- With ERR = 0 a CMD write of a legal word has the effect of its command. -/
theorem exec_wrCmd_command {w : Word} {k : Command} (hk : decodeCmd w = .ok k) (herr : s.err = false) :
    exec (.wrCmd w) s = .next (respond .okWrite (doCommand k s)) := by
  rw [exec_wrCmd, hk, completeCmd_ok herr]

end

/-- Settles O9, by the three branches of ExecCmd. -/
theorem wrCmdExecutesTheWord : Obligations.WrCmdExecutesTheWord := fun v s =>
  ⟨fun herr => exec_wrCmd_of_halted herr v,
   fun herr _ hr => exec_wrCmd_of_error herr hr,
   fun _ _ hk => exec_wrCmd_of_ok hk s⟩

/-! ### START (R101) -/

/-- Outside DONE a digest read is a bus error (42_host_access.md R167). -/
theorem exec_rdDigest_of_not_done {s : State} (h : s.state ≠ .done) (i : BitVec 3) :
    exec (.rdDigest i) s = .next (busErrorState s) := by
  rw [exec_rdDigest, if_neg (by simp [digestReadable, h])]
  rfl

theorem exec_start_of_running {s : State} (herr : s.err = false) :
    exec .start s = .next (respond .okWrite (doStart s)) := exec_command (k := .start) rfl herr

/-- Settles O11: START is `doStart` in every STATE, and what it leaves is not DONE. -/
theorem startBeginsAComputation : Obligations.StartBeginsAComputation := by
  refine ⟨rfl, fun s herr => exec_start_of_running herr, fun s t i herr h => ?_, fun t h => ?_⟩
  · rw [exec_start_of_running herr] at h
    cases h
    exact exec_rdDigest_of_not_done (by simp) i
  · rw [exec_start_of_running rfl] at h
    cases h
    exact ⟨rfl, rfl, rfl, rfl⟩

/-! ### UPDATE and Absorb (R102, R103) -/

@[simp] theorem doUpdate_state (n : BitVec 3) (s : State) : (doUpdate n s).state = s.state := by
  rcases doUpdate_cases s n with ⟨-, h⟩ | ⟨-, -, h⟩ | ⟨-, -, h⟩ <;> simp [h]

section
variable {s : State} {n : BitVec 3}

theorem absorb_of_room (b : Byte) (h : s.bufLen.toNat ≠ 63) :
    absorb b s = { s with buf := s.buf.set s.bufLen.toNat b s.bufLen.isLt, bufLen := s.bufLen + 1 } := if_neg h

theorem absorb_of_last (b : Byte) (h : s.bufLen.toNat = 63) :
    absorb b s =
      { s with
        buf := s.buf.set s.bufLen.toNat b s.bufLen.isLt
        h := compress s.h (s.buf.set s.bufLen.toNat b s.bufLen.isLt)
        bufLen := 0 } := if_pos h

/-- When at most 64 absorbed bytes reach the 64th place, H is one compression of the block they complete. -/
theorem absorbAll_h_full (bs : List Byte) (hfull : 64 ≤ s.bufLen.toNat + bs.length) (hmax : bs.length ≤ 64)
    {blk : Block} (hblk : ∀ (a : Nat) (ha : a < 64),
      blk[a] = if a < s.bufLen.toNat then bufByte s a else bs.getD (a - s.bufLen.toNat) 0) :
    (absorbAll bs s).h = compress s.h blk := by
  have hlt := s.bufLen.isLt
  induction bs generalizing s with
  | nil => simp at hfull; omega
  | cons b bs ih =>
    simp only [List.length_cons] at hfull hmax
    rw [absorbAll_cons]
    have hlen := absorb_bufLen b s
    by_cases hlast : s.bufLen.toNat = 63
    · have hbuf : (absorb b s).buf = blk := by
        apply Vector.ext
        intro a ha
        rw [← bufByte_of_lt _ ha, absorb_bufByte, hblk a ha]
        rcases Nat.lt_or_ge a s.bufLen.toNat with hold | hnew
        · rw [if_neg (by omega), if_pos hold]
        · have hpos : a = s.bufLen.toNat := by omega
          simp [hpos]
      rw [absorbAll_h_short _ _ (by omega), absorb_h, if_pos hlast, hbuf]
    · rw [ih (s := absorb b s) (by omega) (by omega) ?_ (absorb b s).bufLen.isLt, absorb_h, if_neg hlast]
      intro a ha
      rw [hblk a ha, absorb_bufByte, hlen]
      rcases Nat.lt_trichotomy a s.bufLen.toNat with hold | heq | hnew
      · rw [if_pos hold, if_pos (by omega), if_neg (by omega)]
      · simp [heq, show s.bufLen.toNat < (s.bufLen.toNat + 1) % 64 by omega]
      · rw [if_neg (by omega), if_neg (by omega), Nat.mod_eq_of_lt (by omega),
          show a - s.bufLen.toNat = (a - (s.bufLen.toNat + 1)) + 1 by omega, List.getD_cons_succ]

theorem doUpdate_of_not_active (h : s.state ≠ .active) : doUpdate n s = raiseEngineError .updateState s := if_pos h

theorem doUpdate_of_overflow (h : s.state = .active) (hlen : Config.maxLen < s.total.toNat + n.toNat) :
    doUpdate n s = raiseEngineError .lengthOverflow s := by
  simp [doUpdate, h, hlen]

/-- With no bytes UPDATE leaves the state as it is. -/
theorem doUpdate_zero (h : s.state = .active) (hlen : s.total.toNat ≤ Config.maxLen) : doUpdate 0 s = s := by
  have hlanes : lanes 0 s.data = [] := rfl
  have htotal : s.total + (0 : BitVec 3).zeroExtend 64 = s.total := BitVec.add_zero _
  have hok : commandSucceeds s (.update 0) := ⟨h, Nat.zero_le _, hlen⟩
  rw [doUpdate_of_succeeds hok, hlanes, htotal, absorbAll_nil]

section
variable (hok : commandSucceeds s (.update n))
include hok

theorem doUpdate_total : (doUpdate n s).total.toNat = s.total.toNat + n.toNat := by
  rw [doUpdate_of_succeeds hok, absorbAll_total, total_add s n hok.2.2]

theorem doUpdate_bufLen : (doUpdate n s).bufLen.toNat = (s.bufLen.toNat + n.toNat) % 64 := by
  rw [doUpdate_of_succeeds hok, absorbAll_bufLen, lanes_length]

/-- Lane k of DATA goes to BUF[(BUFLEN + k) mod 64]. -/
theorem doUpdate_bufByte_stored {k : Nat} (hk : k < n.toNat) :
    bufByte (doUpdate n s) ((s.bufLen.toNat + k) % 64) = lane s.data k := by
  have hlen := lanes_length n s.data
  have hmax := n.isLt
  rw [doUpdate_of_succeeds hok, ← lanes_getElem n s.data (by omega)]
  exact absorbAll_bufByte_stored _ { s with total := s.total + n.zeroExtend 64 } (by omega) k (by omega)

theorem doUpdate_bufByte_other {a : Nat} (ha : ∀ k, k < n.toNat → a ≠ (s.bufLen.toNat + k) % 64) :
    bufByte (doUpdate n s) a = bufByte s a := by
  rw [doUpdate_of_succeeds hok]
  exact absorbAll_bufByte_other _ _ a fun k hlt => ha k (by rwa [lanes_length] at hlt)

theorem doUpdate_h_short (hroom : s.bufLen.toNat + n.toNat < 64) : (doUpdate n s).h = s.h := by
  rw [doUpdate_of_succeeds hok]
  exact absorbAll_h_short _ _ (by rwa [lanes_length])

theorem doUpdate_h_full (hfull : 64 ≤ s.bufLen.toNat + n.toNat) {blk : Block}
    (hblk : ∀ (a : Nat) (ha : a < 64),
      blk[a] = if a < s.bufLen.toNat then bufByte s a else lane s.data (a - s.bufLen.toNat)) :
    (doUpdate n s).h = compress s.h blk := by
  have hmax := n.isLt
  rw [doUpdate_of_succeeds hok]
  refine absorbAll_h_full (s := { s with total := s.total + n.zeroExtend 64 }) _ (by rwa [lanes_length])
    (by rw [lanes_length]; omega) fun a ha => ?_
  rw [hblk a ha]
  exact ite_congr rfl (fun _ => rfl) fun hnew => (lanes_getD n s.data (by omega)).symm

end

theorem exec_update_of_le (hn : n.toNat ≤ 4) (herr : s.err = false) :
    exec (.update n) s = .next (respond .okWrite (doUpdate n s)) :=
  exec_command (k := .update n) (decide_eq_true hn) herr

/-- The word of UPDATE n is 0x2 + 16n (R102). -/
theorem encodeCmd_update_eq : ∀ n : BitVec 3, encodeCmd (.update n) = 0x00000002 + 16 * n.zeroExtend 32 := by decide

end

/-- Settles O13: the two branches of `absorb`. -/
theorem absorbStoresAndCompressesAtTheLastByte : Obligations.AbsorbStoresAndCompressesAtTheLastByte :=
  fun b _ => ⟨absorb_of_room b, fun h _ hblk => hblk ▸ absorb_of_last b h⟩

/-- Settles O12, by the three branches of `doUpdate`. -/
theorem updateAbsorbsItsLanes : Obligations.UpdateAbsorbsItsLanes := by
  refine ⟨fun n s herr hact hn hlen => ?_, fun n s herr hn hact => ?_, fun n s herr hact hn hlen => ?_, fun n hn => ?_,
    fun _ _ _ => ⟨rfl, rfl⟩, fun s herr hact hlen => ?_⟩
  · rw [exec_update_of_le hn herr, doUpdate_of_succeeds ⟨hact, hn, hlen⟩]; rfl
  · rw [exec_update_of_le hn herr, doUpdate_of_not_active hact]; rfl
  · rw [exec_update_of_le hn herr, doUpdate_of_overflow hact hlen]; rfl
  · rw [← encodeCmd_update_eq]
    exact decodeCmd_encodeCmd (decide_eq_true hn)
  · rw [exec_update_of_le (Nat.zero_le _) herr, doUpdate_zero hact hlen]; rfl

/-! ### FINISH (R104) -/

@[simp] theorem doFinish_total (s : State) : (doFinish s).total = s.total := by
  rcases doFinish_cases s with ⟨-, h⟩ | ⟨-, h⟩ <;> simp [h]

section
variable {s : State}

theorem doFinish_of_not_active (h : s.state ≠ .active) : doFinish s = raiseEngineError .finishState s := if_pos h

theorem exec_finish_of_running (herr : s.err = false) : exec .finish s = .next (respond .okWrite (doFinish s)) :=
  exec_command (k := .finish) rfl herr

/-- BUF holds the block compressed last. -/
theorem doFinish_buf (h : s.state = .active) : (doFinish s).buf = finalBlock s := by
  rw [doFinish_of_active h]
  unfold padAndCompress finalBlock
  dsimp only
  split <;> rfl

theorem doFinish_bufByte (h : s.state = .active) {a : Nat} (ha : a < 64) :
    bufByte (doFinish s) a = (finalBlock s)[a] := by
  rw [bufByte_of_lt _ ha]
  simp only [doFinish_buf h]

theorem doFinish_h_short (h : s.state = .active) (hshort : s.bufLen.toNat ≤ 55) :
    (doFinish s).h = compress s.h (doFinish s).buf := by
  rw [doFinish_buf h, doFinish_of_active h]
  exact (padAndCompress_h s).trans (by rw [if_neg (Nat.not_lt.mpr hshort)])

theorem doFinish_h_long (h : s.state = .active) (hlong : 56 ≤ s.bufLen.toNat) :
    (doFinish s).h = compress (compress s.h (markedTail s)) (doFinish s).buf := by
  rw [doFinish_buf h, doFinish_of_active h]
  exact (padAndCompress_h s).trans (by rw [if_pos (Nat.lt_of_succ_le hlong)])

/-- Byte k of the bit count, the most significant first (R59). -/
theorem be64Bytes_bitCount_getD (total : Doubleword) {k : Nat} (hk : k < 8) :
    (be64Bytes (bitCount total)).getD k 0 = BitVec.ofNat 8 ((total.toNat * 8) >>> (56 - 8 * k)) := by
  rw [be64Bytes_getD _ hk]
  apply BitVec.eq_of_getLsbD_eq
  intro i hi
  have hbit : 56 - 8 * k + i < 64 := by omega
  rw [BitVec.getLsbD_extractLsb', BitVec.getLsbD_ofNat, Nat.testBit_shiftRight, ← BitVec.testBit_toNat, bitCount,
    BitVec.toNat_mul, Nat.testBit_mod_two_pow]
  simp [hi, hbit]

theorem finalBlock_length_byte (s : State) {k : Nat} (hk : k < 8) :
    (finalBlock s)[56 + k] = BitVec.ofNat 8 ((s.total.toNat * 8) >>> (56 - 8 * k)) := by
  rw [finalBlock_getElem s (by omega), if_pos (by omega), Nat.add_sub_cancel_left, be64Bytes_bitCount_getD _ hk]

/-- With BUFLEN at most 55 the last block is the message tail, the marker and zeros before its length field. -/
theorem finalBlock_short_byte (hshort : s.bufLen.toNat ≤ 55) {a : Nat} (ha : a < 56) :
    (finalBlock s)[a] = if a < s.bufLen.toNat then bufByte s a else if a = s.bufLen.toNat then 0x80 else 0 := by
  rw [finalBlock_getElem s (by omega), if_neg (by omega), if_neg (by omega), markedTail_getElem s (by omega)]

theorem finalBlock_long_byte (hlong : 56 ≤ s.bufLen.toNat) {a : Nat} (ha : a < 56) : (finalBlock s)[a] = 0 := by
  rw [finalBlock_getElem s (by omega), if_neg (by omega), if_pos (by omega)]

end

/-! ### What the commands leave unchanged -/

section
variable {s : State}

/-- No command that succeeds changes DATA, ERR, CAUSE, the mark or the queue. -/
theorem doCommand_keeps {k : Command} (hk : commandSucceeds s k) :
    (doCommand k s).data = s.data ∧ (doCommand k s).err = s.err ∧ (doCommand k s).cause = s.cause ∧
      (doCommand k s).faulted = s.faulted ∧ (doCommand k s).pending = s.pending := by
  cases k with
  | start => exact ⟨rfl, rfl, rfl, rfl, rfl⟩
  | update n => rw [doCommand, doUpdate_of_succeeds hk]; simp
  | finish => rw [doCommand, doFinish_of_active hk]; simp

theorem doFinish_bufByte_tail (h : s.state = .active) (hshort : s.bufLen.toNat ≤ 55) {a : Nat}
    (ha : a < s.bufLen.toNat) : bufByte (doFinish s) a = bufByte s a := by
  rw [doFinish_bufByte h (by omega), finalBlock_short_byte hshort (by omega), if_pos ha]

end

/-- Settles O32: five registers no successful command changes, and one frame for each command. -/
theorem commandFrame : Obligations.CommandFrame := by
  intro c s t herr hc hok h
  have hwf : WellFormed c.instr := by
    obtain rfl | rfl | ⟨n, hn, rfl⟩ := hc
    · rfl
    · rfl
    · exact decide_eq_true hn
  rw [exec_command hwf herr] at h
  cases h
  obtain ⟨hdata, hterr, hcause, hmark, hpending⟩ := doCommand_keeps hok
  refine ⟨hdata, hterr, hcause, hmark, hpending, ?_, ?_, ?_⟩
  · rintro rfl _
    rfl
  · rintro rfl
    exact ⟨doFinish_total s, fun a hshort ha => doFinish_bufByte_tail hok hshort ha⟩
  · rintro n rfl
    exact ⟨doUpdate_state n s, fun a ha => doUpdate_bufByte_other hok ha⟩

/-- Settles O14, register by register of a successful `doUpdate`. -/
theorem updateRegistersAndBuffer : Obligations.UpdateRegistersAndBuffer := by
  intro n s t herr hact hn hlen h
  have hok : commandSucceeds s (.update n) := ⟨hact, hn, hlen⟩
  rw [exec_update_of_le hn herr] at h
  cases h
  obtain ⟨hdata, hterr, hcause, hmark, hpending⟩ := doCommand_keeps hok
  exact ⟨(doUpdate_state n s).trans hact, doUpdate_total hok, doUpdate_bufLen hok, hterr.trans herr, hcause, hdata, hmark,
    hpending, rfl, fun k hk => doUpdate_bufByte_stored hok hk, fun a ha => doUpdate_bufByte_other hok ha,
    doUpdate_h_short hok, fun hfull blk hblk => doUpdate_h_full hok hfull hblk⟩

/-- Settles O15: H by the number of blocks padding needs, BUF as the last of them. -/
theorem finishPadsAndCompresses : Obligations.FinishPadsAndCompresses := by
  refine ⟨rfl, fun s herr hact => ?_, fun s herr hact => ⟨_, exec_finish_of_running herr, ?_⟩⟩
  · rw [exec_finish_of_running herr, doFinish_of_not_active hact]
    rfl
  · obtain ⟨hdata, hterr, hcause, hmark, hpending⟩ := doCommand_keeps (k := .finish) hact
    have hbyte := fun a => doFinish_bufByte hact (a := a)
    refine ⟨?_, ?_, doFinish_total s, hterr.trans herr, hcause, hdata, hmark, hpending, rfl, ?_, ?_, ?_⟩
    · rw [doFinish_of_active hact]; rfl
    · rw [doFinish_of_active hact]; rfl
    · exact fun k hk => (hbyte (56 + k) (by omega)).trans (finalBlock_length_byte s hk)
    · exact fun hshort => ⟨doFinish_h_short hact hshort,
        fun a ha => (hbyte a (by omega)).trans (finalBlock_short_byte hshort ha)⟩
    · refine fun hlong => ⟨fun a ha => (hbyte a (by omega)).trans (finalBlock_long_byte hlong ha),
        fun first hfirst => ?_⟩
      have hmarked : first = markedTail s := Vector.ext fun a ha => (hfirst a ha).trans (markedTail_getElem s ha).symm
      rw [hmarked]
      exact doFinish_h_long hact hlong

/-! ### The digest state machine (R110) -/

section
variable {w : Word} {s t : State} (herr : s.err = false) (h : exec (.wrCmd w) s = .next t)
include herr h

theorem wrCmd_start_transition (hw : decodeCmd w = .ok .start) :
    t.state = .active ∧ t.err = false ∧ t.h = initialHash ∧ t.bufLen = 0 ∧ t.total = 0 := by
  rw [exec_wrCmd_command hw herr] at h
  cases h
  exact ⟨rfl, herr, rfl, rfl, rfl⟩

theorem wrCmd_update_transition {n : BitVec 3} (hw : decodeCmd w = .ok (.update n)) :
    t.state = s.state ∧
      (s.state = .active → (s.total.toNat + n.toNat ≤ Config.maxLen → t.err = false) ∧
        (Config.maxLen < s.total.toNat + n.toNat → t.err = true ∧ t.cause = .lengthOverflow)) ∧
      (s.state ≠ .active → t.err = true ∧ t.cause = .updateState) := by
  rw [exec_wrCmd_command hw herr, doCommand] at h
  cases h
  refine ⟨doUpdate_state n s, fun hact => ⟨fun hlen => ?_, fun hlen => ?_⟩, fun hact => ?_⟩
  · have hok : commandSucceeds s (.update n) := ⟨hact, decodeCmd_update_le hw, hlen⟩
    simpa [doUpdate_of_succeeds hok] using herr
  · rw [doUpdate_of_overflow hact hlen]; exact ⟨rfl, rfl⟩
  · rw [doUpdate_of_not_active hact]; exact ⟨rfl, rfl⟩

theorem wrCmd_finish_transition (hw : decodeCmd w = .ok .finish) :
    (s.state = .active → t.state = .done ∧ t.err = false) ∧
      (s.state ≠ .active → t.state = s.state ∧ t.err = true ∧ t.cause = .finishState) := by
  rw [exec_wrCmd_command hw herr, doCommand] at h
  cases h
  refine ⟨fun hact => ?_, fun hact => ?_⟩
  · simpa [doFinish_of_active hact] using herr
  · rw [doFinish_of_not_active hact]; exact ⟨rfl, rfl, rfl⟩

end

/-- Settles O36, by the rows of R110's table, the error state and reset. -/
theorem phaseTransitions : Obligations.PhaseTransitions := by
  refine ⟨fun w s t herr h => ⟨wrCmd_start_transition herr h, fun n => wrCmd_update_transition herr h,
    wrCmd_finish_transition herr h, ?_⟩, fun w s t herr h => ?_, fun s rest t hp h => ?_⟩
  · rintro ⟨r, hr⟩
    rw [exec_wrCmd_of_error herr hr] at h
    cases h
    exact ⟨rfl, rfl, rfl⟩
  · rw [exec_wrCmd_of_halted herr] at h
    cases h
    exact ⟨rfl, herr⟩
  · rw [step_reset hp] at h
    cases h
    rfl

end Sys2Proof.Machine
end

section
/-! Proofs of the statements of 40_digest_commands.md about whole messages: the padded message (R105, R106), the digest of a
computation (R109), and that it depends on the message only (R107, R108). -/

namespace Sys2Proof.Machine

/-- Settles O54: the zero count is below 64, so no smaller one has its residue. -/
theorem paddedMessageShape : Obligations.PaddedMessageShape := by
  intro m
  obtain ⟨hmod, hlt⟩ := padZeros_mod m.length
  have hlen := padMessage_length m
  refine ⟨padZeros m.length, rfl, hmod, fun z' hz' => by omega, hlen, by omega, ?_⟩
  split <;> omega

/-- The number of steps a computation takes is the number of its answers. -/
theorem digestEvents_length (cs : List (Word × BitVec 3)) : (digestEvents cs).length = 2 + 2 * cs.length := by
  have hfeed : (feedChunks cs).length = 2 * cs.length := by
    induction cs with
    | nil => rfl
    | cons c cs ih => rw [feedChunks_cons, List.length_cons, List.length_cons, List.length_cons, ih]; omega
  rw [← List.append_nil (digestEvents cs), digestEvents_append, List.length_cons, List.length_append, List.length_cons,
    hfeed, List.length_nil]
  omega

/-- A computation, run to its end. -/
theorem run_digestEvents {cs : List (Word × BitVec 3)} {s : State} {rest : List BusEvent} (herr : s.err = false)
    (hn : ∀ c ∈ cs, c.2.toNat ≤ 4) (hlen : (chunksMessage cs).length ≤ Config.maxLen)
    (hp : s.pending = digestEvents cs ++ rest) :
    ∃ t, Host.Core.run Sys2Proof.core (digestEvents cs).length s = .next t ∧ t.pending = rest ∧
      Computed (chunksMessage cs) s.faulted t := by
  obtain ⟨t, hst, ht, hcomp⟩ := digestEvents_reaches herr hn hlen hp
  have hrun := hst.run 0
  rw [List.length_replicate, ← digestEvents_length] at hrun
  exact ⟨t, hrun, ht, hcomp⟩

/-- Two computations that end with one message agree on H and TOTAL. -/
theorem Finalized.unique {m : List Byte} {s t : State} (hs : Finalized m s) (ht : Finalized m t) :
    s.h = t.h ∧ s.total = t.total :=
  ⟨hs.digest.trans ht.digest.symm, BitVec.eq_of_toNat_eq (hs.totalLen.trans ht.totalLen.symm)⟩

/-- Settles O43, from the run of a computation; the blocks of pad(M) are in `padAndCompress_digest`. -/
theorem digestIsTheHashOfTheMessage : Obligations.DigestIsTheHashOfTheMessage := by
  intro cs s rest herr hn hlen hp
  obtain ⟨t, hrun, ht, ⟨hfin, hterr, hmark⟩⟩ := run_digestEvents herr hn hlen hp
  exact ⟨t, hrun, hfin, hterr, hmark, ht, by rw [digestBytes, hfin.digest]⟩

/-- Settles O44: each computation ends with the digest of its message, and the messages are equal. -/
theorem streamingEquivalence : Obligations.StreamingEquivalence := by
  intro cs ds s₁ s₂ t₁ t₂ rest₁ rest₂ herr₁ herr₂ hcs hds hmsg hlen hp₁ hp₂ hrun₁ hrun₂
  obtain ⟨u₁, hu₁, -, ⟨hfin₁, -, -⟩⟩ := run_digestEvents herr₁ hcs hlen hp₁
  obtain ⟨u₂, hu₂, -, ⟨hfin₂, -, -⟩⟩ := run_digestEvents herr₂ hds (hmsg ▸ hlen) hp₂
  cases hu₁.symm.trans hrun₁
  cases hu₂.symm.trans hrun₂
  rw [← hmsg] at hfin₂
  exact ⟨hfin₁.done, hfin₂.done, hfin₁.unique hfin₂⟩

end Sys2Proof.Machine
end

section
/-! Proofs of the statements of 41_compression.md about the compression: its bit functions (R133 to R138), the schedule (R131,
R132), the rounds (R139 to R143) and the rolling schedule (R146). -/

namespace Sys2Proof.Machine

/-! ### The bit functions (R133 to R138) -/

/-- Each bit of x chooses between y and z (R137). -/
theorem choose_getLsbD (x y z : Word) {i : Nat} (hi : i < 32) :
    (choose x y z).getLsbD i = if x.getLsbD i then y.getLsbD i else z.getLsbD i := by
  simp only [choose, BitVec.getLsbD_xor, BitVec.getLsbD_and, BitVec.getLsbD_not, hi]
  cases x.getLsbD i <;> simp

/-- Each bit is the majority of the three (R138). -/
theorem majority_getLsbD (x y z : Word) (i : Nat) :
    (majority x y z).getLsbD i = true ↔
      2 ≤ (x.getLsbD i).toNat + (y.getLsbD i).toNat + (z.getLsbD i).toNat := by
  simp only [majority, BitVec.getLsbD_xor, BitVec.getLsbD_and]
  cases x.getLsbD i <;> cases y.getLsbD i <;> cases z.getLsbD i <;> decide

/-- Settles O48, bit by bit. -/
theorem chooseAndMajority : Obligations.ChooseAndMajority :=
  ⟨fun x y z _ hi => choose_getLsbD x y z hi, fun x y z i _ => majority_getLsbD x y z i, fun _ _ _ => ⟨rfl, rfl⟩,
   by decide, by decide⟩

/-- The XOR of three rotations, bit by bit. -/
theorem xor_rotr_getLsbD (x : Word) {a b c i : Nat} (ha : a < 32) (hb : b < 32) (hc : c < 32) (hi : i < 32) :
    (rotr x a ^^^ rotr x b ^^^ rotr x c).getLsbD i =
      ((x.getLsbD ((i + a) % 32) ^^ x.getLsbD ((i + b) % 32)) ^^ x.getLsbD ((i + c) % 32)) := by
  rw [BitVec.getLsbD_xor, BitVec.getLsbD_xor, rotr_getLsbD x ha hi, rotr_getLsbD x hb hi, rotr_getLsbD x hc hi]

/-- The XOR of two rotations and a shift, bit by bit; what the shift would take from above bit 31 is 0. -/
theorem xor_rotr_shr_getLsbD (x : Word) {a b i : Nat} (c : Nat) (ha : a < 32) (hb : b < 32) (hi : i < 32) :
    (rotr x a ^^^ rotr x b ^^^ shr x c).getLsbD i =
      ((x.getLsbD ((i + a) % 32) ^^ x.getLsbD ((i + b) % 32)) ^^ (decide (i + c < 32) && x.getLsbD (i + c))) := by
  have hshift : x.getLsbD (i + c) = (decide (i + c < 32) && x.getLsbD (i + c)) := by
    by_cases hin : i + c < 32
    · simp [hin]
    · simp [hin, BitVec.getLsbD_of_ge x (i + c) (Nat.not_lt.mp hin)]
  rw [BitVec.getLsbD_xor, BitVec.getLsbD_xor, rotr_getLsbD x ha hi, rotr_getLsbD x hb hi, shr_getLsbD, ← hshift]

/-- Settles O49, from the bits of the rotations. -/
theorem sigmaFunctions : Obligations.SigmaFunctions := by
  refine ⟨fun x i hi => ⟨?_, ?_, ?_, ?_⟩, by decide, by decide, by decide, by decide⟩
  · exact xor_rotr_shr_getLsbD x 3 (by decide) (by decide) hi
  · exact xor_rotr_shr_getLsbD x 10 (by decide) (by decide) hi
  · exact xor_rotr_getLsbD x (by decide) (by decide) (by decide) hi
  · exact xor_rotr_getLsbD x (by decide) (by decide) (by decide) hi

/-! ### The schedule (R131, R132) -/

/-- The words W[0..15] that a schedule begins with (R131). -/
def blockWords (blk : Block) : List Word := (List.finRange 16).map (blockWord blk)

@[simp] theorem blockWords_length (blk : Block) : (blockWords blk).length = 16 := by simp [blockWords]

theorem blockWords_getD (blk : Block) {t : Nat} (ht : t < 16) : (blockWords blk).getD t 0 = blockWord blk ⟨t, ht⟩ := by
  simp [blockWords, ht]

/-- The right-hand side of the recurrence for W[t] (R132). -/
def scheduleRecurrence (ws : List Word) (t : Nat) : Word :=
  smallSigma1 (ws.getD (t - 2) 0) + ws.getD (t - 7) 0 + smallSigma0 (ws.getD (t - 15) 0) + ws.getD (t - 16) 0

/-- The recurrence for W[t] reads the sixteen words before it only. -/
theorem scheduleRecurrence_congr {ws vs : List Word} {t : Nat} (ht : 16 ≤ t)
    (h : ∀ k, k < t → ws.getD k 0 = vs.getD k 0) : scheduleRecurrence ws t = scheduleRecurrence vs t := by
  rw [scheduleRecurrence, scheduleRecurrence, h (t - 2) (by omega), h (t - 7) (by omega), h (t - 15) (by omega),
    h (t - 16) (by omega)]

/-- Each word added satisfies the recurrence in the whole list: the words it reads are there when it is added, and stay. -/
theorem extendSchedule_recurrence (n : Nat) (ws : List Word) {t : Nat} (hbase : 16 ≤ ws.length) (hlow : ws.length ≤ t)
    (hhigh : t < ws.length + n) : (extendSchedule n ws).getD t 0 = scheduleRecurrence (extendSchedule n ws) t := by
  induction n generalizing ws with
  | zero => omega
  | succ n ih =>
    have hlen : (ws ++ [nextScheduleWord ws]).length = ws.length + 1 := by simp
    rcases hlow.eq_or_lt with rfl | hlater
    · calc (extendSchedule (n + 1) ws).getD ws.length 0
          = (ws ++ [nextScheduleWord ws]).getD ws.length 0 := extendSchedule_getD n _ (by omega)
        _ = scheduleRecurrence ws ws.length := by simp [nextScheduleWord, scheduleRecurrence]
        _ = scheduleRecurrence (extendSchedule (n + 1) ws) ws.length :=
            scheduleRecurrence_congr hbase fun k hk => (extendSchedule_getD (n + 1) ws hk).symm
    · exact ih _ (by omega) (by omega) (by omega)

@[simp] theorem schedule_length (blk : Block) : (schedule blk).length = 64 := by
  simp [schedule, extendSchedule_length]

theorem schedule_getD_block (blk : Block) {t : Nat} (ht : t < 16) : (schedule blk).getD t 0 = (blockWords blk).getD t 0 :=
  extendSchedule_getD 48 (blockWords blk) (by simpa using ht)

theorem schedule_recurrence (blk : Block) {t : Nat} (hlow : 16 ≤ t) (hhigh : t < 64) :
    (schedule blk).getD t 0 = scheduleRecurrence (schedule blk) t :=
  extendSchedule_recurrence 48 (blockWords blk) (by simp) (by simpa using hlow) (by simpa using hhigh)

/-- Settles O50: the block's words stay, and each later word satisfies the recurrence. -/
theorem scheduleWords : Obligations.ScheduleWords := fun blk =>
  ⟨schedule_length blk, fun _ ht => (schedule_getD_block blk ht).trans (blockWords_getD blk ht),
   fun _ hlow hhigh => schedule_recurrence blk hlow hhigh⟩

/-! ### The rounds (R139 to R143) -/

@[simp] theorem roundConstants_length : roundConstants.length = 64 := rfl

/-- A fold over one more element is one more step. -/
theorem foldl_take_succ {α β : Type} (f : β → α → β) (b : β) (l : List α) {t : Nat} (ht : t < l.length) :
    (l.take (t + 1)).foldl f b = f ((l.take t).foldl f b) l[t] := by
  rw [← List.take_append_getElem ht, List.foldl_append]
  rfl

/-- The working variables after the first t rounds. -/
def workingAfter (hin : Hash) (blk : Block) (t : Nat) : Working :=
  ((roundConstants.zip (schedule blk)).take t).foldl (fun v kw => roundStep v kw.1 kw.2) (loadWorking hin)

section
variable (hin : Hash) (blk : Block)

@[simp] theorem workingAfter_zero : workingAfter hin blk 0 = loadWorking hin := rfl

theorem workingAfter_succ {t : Nat} (ht : t < 64) :
    workingAfter hin blk (t + 1) =
      roundStep (workingAfter hin blk t) (roundConstants.getD t 0) ((schedule blk).getD t 0) := by
  have hzip : t < (roundConstants.zip (schedule blk)).length := by simpa using ht
  rw [workingAfter, foldl_take_succ _ _ _ hzip, List.getElem_zip, List.getD_eq_getElem _ _ (by simpa using ht),
    List.getD_eq_getElem _ _ (by simpa using ht), workingAfter]

theorem compress_eq_workingAfter : compress hin blk = addWorking hin (workingAfter hin blk 64) := by
  rw [compress_eq, runRounds, workingAfter, List.take_of_length_le (by simp)]

end

/-- Settles O51: the variables between the rounds are `workingAfter`. -/
theorem compressRunsSixtyFourRounds : Obligations.CompressRunsSixtyFourRounds := fun hin blk =>
  ⟨workingAfter hin blk, workingAfter_zero hin blk, fun _ ht => workingAfter_succ hin blk ht,
   compress_eq_workingAfter hin blk⟩

/-! ### The rolling schedule (R146) -/

/-- `win` is the sixteen words W[t..t+15], as far as the schedule `ws` has them. -/
structure WindowAt (ws : List Word) (t : Nat) (win : List Word) : Prop where
  length : win.length = 16
  word : ∀ j, j < 16 → t + j < ws.length → win.getD j 0 = ws.getD (t + j) 0

/-- The block's words are the first window. -/
theorem windowAt_blockWords (blk : Block) : WindowAt (schedule blk) 0 (blockWords blk) where
  length := blockWords_length blk
  word j hj _ := by rw [Nat.zero_add, schedule_getD_block blk hj]

/-- Rolling moves the window on by one: the word it adds is the recurrence's, read inside the window. -/
theorem WindowAt.roll {blk : Block} {t : Nat} {win : List Word} (h : WindowAt (schedule blk) t win) :
    WindowAt (schedule blk) (t + 1) (rollWindow win) where
  length := by simp [rollWindow, h.length]
  word j hj hin := by
    have htail : win.tail.length = 15 := by simp [h.length]
    rw [schedule_length] at hin
    rcases Nat.lt_or_ge j 15 with hold | hnew
    · have hnext := h.word (j + 1) (by omega) (by rw [schedule_length]; omega)
      rw [rollWindow, List.getD_append _ _ _ _ (by omega), show t + 1 + j = t + (j + 1) by omega, ← hnext]
      simp
    · obtain rfl : j = 15 := by omega
      have hread : ∀ k, k < 16 → t + k < 64 → win.getD k 0 = (schedule blk).getD (t + k) 0 := by
        simpa using h.word
      rw [rollWindow, List.getD_append_right _ _ _ _ (by omega), htail, schedule_recurrence blk (by omega) hin,
        hread 14 (by omega) (by omega), hread 9 (by omega) (by omega), hread 1 (by omega) (by omega),
        hread 0 (by omega) (by omega)]
      rfl

/-- The working variables and the window of the rolling computation after its first t rounds. -/
def rollingAfter (hin : Hash) (blk : Block) (t : Nat) : Working × List Word :=
  (roundConstants.take t).foldl rollingRound (loadWorking hin, blockWords blk)

section
variable (hin : Hash) (blk : Block)

theorem rollingAfter_succ {t : Nat} (ht : t < 64) :
    rollingAfter hin blk (t + 1) = rollingRound (rollingAfter hin blk t) (roundConstants.getD t 0) := by
  rw [rollingAfter, foldl_take_succ _ _ _ (by simpa using ht), List.getD_eq_getElem _ _ (by simpa using ht), rollingAfter]

theorem compressRolling_eq_rollingAfter : compressRolling hin blk = addWorking hin (rollingAfter hin blk 64).1 := by
  rw [compressRolling, rollingAfter, List.take_of_length_le (by simp)]
  rfl

/-- After every round the two computations have the same working variables, and the window stands at the round's word. -/
theorem rollingAfter_simulates {t : Nat} (ht : t ≤ 64) :
    (rollingAfter hin blk t).1 = workingAfter hin blk t ∧ WindowAt (schedule blk) t (rollingAfter hin blk t).2 := by
  induction t with
  | zero => exact ⟨rfl, windowAt_blockWords blk⟩
  | succ t ih =>
    obtain ⟨hworking, hwin⟩ := ih (by omega)
    have hfirst : (rollingAfter hin blk t).2.getD 0 0 = (schedule blk).getD t 0 :=
      hwin.word 0 (by omega) (by simpa using ht)
    rw [rollingAfter_succ hin blk ht, workingAfter_succ hin blk ht, rollingRound, hworking, hfirst]
    exact ⟨rfl, hwin.roll⟩

end

/-- Settles O52, from the simulation after 64 rounds. -/
theorem rollingScheduleAgrees : Obligations.RollingScheduleAgrees := by
  intro hin blk
  rw [compressRolling_eq_rollingAfter, compress_eq_workingAfter, (rollingAfter_simulates hin blk le_rfl).1]

end Sys2Proof.Machine
end

section
/-! Proof of the statement of 41_compression.md about the constant tables (R141, R142). -/

namespace Sys2Proof.Machine

/-! ### The primes -/

/-- The primes below 18, the trial divisors for numbers below 18^2. -/
def trialDivisors : List Nat := [2, 3, 5, 7, 11, 13, 17]

/-- p is at least 2, and no trial divisor but p itself divides it. -/
def passesTrial (p : Nat) : Bool := 2 ≤ p && trialDivisors.all fun m => p % m != 0 || m == p

theorem passesTrial_iff (p : Nat) : passesTrial p = true ↔ 2 ≤ p ∧ ∀ m ∈ trialDivisors, m ∣ p → m = p := by
  simp [passesTrial, Nat.dvd_iff_mod_eq_zero, or_iff_not_imp_left]

theorem mem_trialDivisors {m : Nat} (hlt : m < 18) : m ∈ trialDivisors ↔ m.Prime := by
  revert m; decide

/-- Trial division decides primality below 18^2: a composite number there has its least prime factor below 18. -/
theorem passesTrial_iff_prime {p : Nat} (hlt : p < 18 ^ 2) : passesTrial p = true ↔ p.Prime := by
  rw [passesTrial_iff]
  constructor
  · rintro ⟨htwo, hdiv⟩
    by_contra hnot
    have hsq : p.minFac ^ 2 < 18 ^ 2 := (Nat.minFac_sq_le_self (by omega) hnot).trans_lt hlt
    have hprime : p.minFac.Prime := Nat.minFac_prime (by omega)
    have hself : p.minFac = p :=
      hdiv _ ((mem_trialDivisors (lt_of_pow_lt_pow_left' 2 hsq)).mpr hprime) p.minFac_dvd
    exact hnot (hself ▸ hprime)
  · intro hprime
    refine ⟨hprime.two_le, fun m hm hdvd => ?_⟩
    have hsmall : ∀ m ∈ trialDivisors, m < 18 := by decide
    exact (Nat.prime_dvd_prime_iff_eq ((mem_trialDivisors (hsmall m hm)).mp hm) hprime).mp hdvd

theorem primes64_eq_filter : primes64 = (List.range 312).filter passesTrial := by decide

theorem mem_primes64 (p : Nat) : p ∈ primes64 ↔ p.Prime ∧ p ≤ 311 := by
  rw [primes64_eq_filter, List.mem_filter, List.mem_range, and_comm, Nat.lt_succ_iff]
  exact and_congr_left fun hle => passesTrial_iff_prime (by omega)

theorem primes64_pairwise : primes64.Pairwise (· < ·) := by
  rw [primes64_eq_filter]
  exact List.pairwise_lt_range.filter _

/-! ### The roots -/

/-- c is the floor of the n-th root of p * 2^(32n): its lowest 32 bits are the first 32 fractional bits of the n-th root of p. -/
abbrev IsScaledRoot (n p c : Nat) : Prop := c ^ n ≤ p * 2 ^ (32 * n) ∧ p * 2 ^ (32 * n) < (c + 1) ^ n

/-- The integer part of the n-th root of p (for a root below 7), followed by the 32 fractional bits `k`. -/
def rootWithFraction (n p : Nat) (k : Word) : Nat := Nat.findGreatest (fun q => q ^ n ≤ p) 6 * 2 ^ 32 + k.toNat

theorem rootWithFraction_mod (n p : Nat) (k : Word) : k.toNat = rootWithFraction n p k % 2 ^ 32 := by
  rw [rootWithFraction, Nat.mul_add_mod_self_right, Nat.mod_eq_of_lt k.isLt]

theorem roundConstants_cubeRoot : ∀ t, t < 64 →
    IsScaledRoot 3 (primes64.getD t 0) (rootWithFraction 3 (primes64.getD t 0) (roundConstants.getD t 0)) := by
  decide

theorem initialHash_squareRoot : ∀ (i : Nat) (hi : i < 8),
    IsScaledRoot 2 (primes64.getD i 0) (rootWithFraction 2 (primes64.getD i 0) initialHash[i]) := by
  decide

/-- Settles O53: each floor is the root's integer part followed by the table entry. -/
theorem constantTablesFromPrimes : Obligations.ConstantTablesFromPrimes := by
  refine ⟨rfl, mem_primes64, primes64_pairwise, fun t ht => ?_, fun i hi => ?_⟩
  · obtain ⟨hle, hlt⟩ := roundConstants_cubeRoot t ht
    exact ⟨_, hle, hlt, rootWithFraction_mod ..⟩
  · obtain ⟨hle, hlt⟩ := initialHash_squareRoot i hi
    exact ⟨_, hle, hlt, rootWithFraction_mod ..⟩

end Sys2Proof.Machine
end

section
/-! Proofs of the statements of 42_host_access.md about single accesses: a CMD write that completes (R161), the DATA register as
written and read (R162, R163), and the digest reads (R167). -/

namespace Sys2Proof.Machine

/-! ### WR_CMD (R161) -/

/-- Settles O10: the command's own effect, answered, and a command that succeeds keeps the registers named. -/
theorem wrCmdCompletes : Obligations.WrCmdCompletes := by
  intro w k s herr hw hok
  obtain ⟨hdata, hterr, hcause, hmark, hpending⟩ := doCommand_keeps hok
  exact ⟨_, exec_wrCmd_command hw herr, rfl, hterr.trans herr, hcause, hmark, hdata, hpending⟩

/-! ### DATA (R162, R163) -/

theorem decodeAccess_wrData (v : Word) : decodeAccess 0x44 v = .ok (.wrData v) :=
  decodeAccess_of_descriptorRow (.inr (.inl ⟨rfl, rfl⟩))

theorem decodeAccess_rdData (v : Word) : decodeAccess 0x04 v = .ok .rdData :=
  decodeAccess_of_descriptorRow (.inr (.inr (.inl ⟨rfl, rfl⟩)))

/-- Settles O26: a DATA write sets DATA and the answer, which the next DATA write sets again. -/
theorem writeDataStoresTheWord : Obligations.WriteDataStoresTheWord := by
  refine ⟨decodeAccess_wrData, exec_wrData, fun v w s t h => ?_, fun v s t h => ?_⟩
  · rw [exec_wrData] at h
    cases h
    rw [exec_wrData, exec_wrData]
    rfl
  · rw [exec_wrData] at h
    cases h
    exact exec_rdData _

/-- Settles O27: RD_DATA answers DATA, which UPDATE, a CMD write, leaves. -/
theorem readDataReturnsData : Obligations.ReadDataReturnsData :=
  ⟨decodeAccess_rdData, exec_rdData, exec_rdData State.reset, fun _ _ _ h => exec_command_data rfl h⟩

/-! ### The digest (R167) -/

theorem decodeAccess_rdDigest {d : BitVec 7} (hd : d &&& 0x63 = 0x20) (v : Word) :
    decodeAccess d v = .ok (.rdDigest (d.extractLsb' 2 3)) :=
  decodeAccess_of_descriptorRow (.inr (.inr (.inr (.inr (.inr (.inr ⟨hd, rfl⟩))))))

/-- While ERR = 1 a digest read is a bus error, in every STATE. -/
theorem exec_rdDigest_of_halted {s : State} (herr : s.err = true) (i : BitVec 3) :
    exec (.rdDigest i) s = .next (busErrorState s) := by
  rw [exec_rdDigest, if_neg (by simp [digestReadable, herr])]
  rfl

/-- Settles O30: the digest is read in DONE with ERR = 0 only, and a START ends DONE. -/
theorem digestReadsTheHash : Obligations.DigestReadsTheHash := by
  obtain ⟨-, -, hstart, -⟩ := startBeginsAComputation
  refine ⟨fun d v hd => decodeAccess_rdDigest hd v, fun i s t _ herr h => hstart s t i herr h, fun i s =>
    ⟨fun hdone herr => ⟨exec_rdDigest_of_done i hdone herr, fun t h => ?_⟩, fun hrefused => ?_⟩⟩
  · obtain ⟨-, hrepeat⟩ := exec_rdDigest_onlyAnswers h
    exact hrepeat
  · obtain hstate | herr := hrefused
    · exact exec_rdDigest_of_not_done hstate i
    · exact exec_rdDigest_of_halted herr i

end Sys2Proof.Machine
end

section
/-! Proofs of the statements of 60_exceptions.md about the engine errors: their entries (R203 to R206), their order (R209), the
error state and the way out of it (R207, R208). -/

namespace Sys2Proof.Machine

/-! ### The error entries (R203 to R205) -/

section
variable {s : State} {n : BitVec 3}

theorem ne_active_of_idle_or_done (h : s.state = .idle ∨ s.state = .done) : s.state ≠ .active := by
  obtain h | h := h <;> simp [h]

theorem exec_update_of_not_active (hn : n.toNat ≤ 4) (herr : s.err = false) (h : s.state ≠ .active) :
    exec (.update n) s = .next (errorState .updateState s) := by
  rw [exec_update_of_le hn herr, doUpdate_of_not_active h]
  rfl

theorem exec_finish_of_not_active (herr : s.err = false) (h : s.state ≠ .active) :
    exec .finish s = .next (errorState .finishState s) := by
  rw [exec_finish_of_running herr, doFinish_of_not_active h]
  rfl

theorem exec_update_of_overflow (hn : n.toNat ≤ 4) (herr : s.err = false) (h : s.state = .active)
    (hlen : Config.maxLen < s.total.toNat + n.toNat) :
    exec (.update n) s = .next (errorState .lengthOverflow s) := by
  rw [exec_update_of_le hn herr, doUpdate_of_overflow h hlen]
  rfl

end

/-- Settles O16: neither IDLE nor DONE is ACTIVE. -/
theorem updateOutsideActiveIsAnError : Obligations.UpdateOutsideActiveIsAnError :=
  fun _ _ herr hn h => exec_update_of_not_active hn herr (ne_active_of_idle_or_done h)

/-- Settles O17: neither IDLE nor DONE is ACTIVE, and the error entry sets ERR, under which no digest is read. -/
theorem finishOutsideActiveIsAnError : Obligations.FinishOutsideActiveIsAnError :=
  fun _ herr h => ⟨exec_finish_of_not_active herr (ne_active_of_idle_or_done h), rfl, exec_rdDigest_of_halted rfl⟩

/-! ### The bound on TOTAL (R205) -/

section
variable {s : State} (hlen : s.total.toNat ≤ Config.maxLen)
include hlen

/-- START sets TOTAL to 0, UPDATE succeeds within the bound only, FINISH keeps TOTAL. -/
theorem doCommand_total_le {k : Command} (hk : commandSucceeds s k) : (doCommand k s).total.toNat ≤ Config.maxLen := by
  cases k with
  | start => exact Nat.zero_le _
  | update n =>
    have htotal := doUpdate_total hk
    obtain ⟨-, -, hbound⟩ := hk
    exact htotal.trans_le hbound
  | finish => rwa [doCommand, doFinish_total]

theorem completeCmd_total_le (w : Word) : (completeCmd (decodeCmd w) s).total.toNat ≤ Config.maxLen := by
  rcases completeCmd_cases w s with ⟨-, h⟩ | ⟨-, c, -, h⟩ | ⟨-, k, -, hk, h⟩ <;> rw [h]
  · exact hlen
  · exact hlen
  · exact doCommand_total_le hlen hk

theorem step_total_le {t : State} (h : step s = .next t) : t.total.toNat ≤ Config.maxLen := by
  rcases step_registers h with ⟨rest, -, rfl⟩ | ⟨w, rest, -, rfl⟩ | ⟨-, hkept⟩
  · exact Nat.zero_le _
  · exact completeCmd_total_le (s := { s with pending := rest }) hlen w
  · rwa [hkept.total]

end

/-- Settles O18: the overflow entry, and the bound by the three cases of a step. -/
theorem lengthOverflowIsRefused : Obligations.LengthOverflowIsRefused :=
  ⟨fun _ _ herr hn hact hlen => exec_update_of_overflow hn herr hact hlen, Nat.zero_le _, fun _ _ hlen h => step_total_le hlen h⟩

/-! ### The order of the errors (R209) -/

/-- Settles O19, by what the word decodes to: nothing, UPDATE, FINISH, or a command that succeeds. -/
theorem errorPriority : Obligations.ErrorPriority := by
  refine fun w s t h => ⟨fun herr => ?_, fun herr hw => ?_, fun herr n hw hact => ?_, fun herr hw hact => ?_,
    fun herr n hw hact hlen => ?_, fun herr k hw hok => ?_⟩
  · rw [exec_wrCmd_of_halted herr] at h
    cases h
    exact ⟨herr, rfl, rfl⟩
  · obtain ⟨r, hr⟩ := (decodeCmd_error_iff w).mpr hw
    rw [exec_wrCmd_of_error herr hr] at h
    cases h
    exact ⟨rfl, rfl⟩
  · obtain ⟨-, -, houtside⟩ := wrCmd_update_transition herr h hw
    exact houtside hact
  · obtain ⟨-, houtside⟩ := wrCmd_finish_transition herr h hw
    exact (houtside hact).2
  · obtain ⟨-, hactive, -⟩ := wrCmd_update_transition herr h hw
    exact (hactive hact).2 hlen
  · rw [exec_wrCmd_command hw herr] at h
    cases h
    obtain ⟨-, hterr, hcause, -, -⟩ := doCommand_keeps hok
    exact ⟨hterr.trans herr, hcause⟩

/-! ### Into the error state and out of it (R206 to R208) -/

/-- Settles O20: of what a step can do, only a CMD write's error entry sets ERR. -/
theorem errorEntryIsPrecise : Obligations.ErrorEntryIsPrecise := by
  intro s t herr h hterr
  rcases step_registers h with ⟨rest, -, rfl⟩ | ⟨w, rest, hp, rfl⟩ | ⟨-, hkept⟩
  · cases hterr
  · rcases completeCmd_cases w { s with pending := rest } with ⟨herr', -⟩ | ⟨-, c, hc, hcmd⟩ | ⟨-, k, -, hok, hcmd⟩
    · exact absurd (herr.symm.trans herr') (by decide)
    · exact ⟨_, rest, c, hp, hc, hcmd⟩
    · obtain ⟨-, hkeep, -⟩ := doCommand_keeps hok
      rw [hcmd, respond_err, hkeep] at hterr
      exact absurd (herr.symm.trans hterr) (by decide)
  · exact absurd (herr.symm.trans (hkept.err.symm.trans hterr)) (by decide)

section
variable {s : State} (herr : s.err = true)
include herr

theorem exec_command_of_halted {i : Instr} (hi : executesCommand i = true) :
    exec i s = .next { s with response := .okWrite } := by
  cases i with
  | start | update | finish | wrCmd => exact congrArg Host.Outcome.next (completeCmd_halted herr _)
  | wrData | rdData | rdStatus | rdLenLo | rdLenHi | rdDigest => cases hi

/-- While ERR = 1 every step but a reset keeps ERR and CAUSE. -/
theorem step_of_halted {t : State} (h : step s = .next t) :
    (∃ rest, s.pending = .reset :: rest) ∨ (t.err = true ∧ t.cause = s.cause) := by
  rcases step_registers h with ⟨rest, hp, -⟩ | ⟨w, rest, -, rfl⟩ | ⟨-, hkept⟩
  · exact .inl ⟨rest, hp⟩
  · rw [completeCmd_halted (s := { s with pending := rest }) herr]
    exact .inr ⟨herr, rfl⟩
  · exact .inr ⟨hkept.err.trans herr, hkept.cause⟩

end

/-- DATA and the three views are read in every state. -/
theorem exec_read_answers {i : Instr} (hi : readsRegister i = true) (hne : ∀ k, i ≠ .rdDigest k) (s : State) :
    ∃ v, exec i s = .next (respond (.okRead v) s) := by
  cases i with
  | start | update | finish | wrCmd | wrData => cases hi
  | rdData | rdStatus | rdLenLo | rdLenHi => exact ⟨_, rfl⟩
  | rdDigest k => exact absurd rfl (hne k)

/-- Settles O21: commands, DATA writes, the reads that are always answered, and digest reads. -/
theorem haltedEngine : Obligations.HaltedEngine := fun s herr =>
  ⟨fun _ => exec_command_of_halted herr, fun v => exec_wrData v s, fun _ hi hne => exec_read_answers hi hne s,
    exec_rdDigest_of_halted herr⟩

/-- Settles O22: the steps of a halted engine, and the state a reset leaves, which is IDLE with ERR = 0. -/
theorem onlyResetLeavesTheErrorState : Obligations.OnlyResetLeavesTheErrorState := by
  refine ⟨fun s t herr h hleft => ?_, fun s rest hp => ⟨_, step_reset hp, rfl, rfl, rfl, ?_, fun n hn => ?_⟩⟩
  · obtain hreset | ⟨hterr, hcause⟩ := step_of_halted herr h
    · exact hreset
    · simp [hterr, hcause] at hleft
  · exact exec_finish_of_not_active rfl (by simp)
  · exact exec_update_of_not_active hn rfl (by simp)

end Sys2Proof.Machine
end

section
/-! Proofs of the statements of 60_exceptions.md about bus errors (R210, R211), about the mark and the runs of the machine (R200,
R212), and about several engines (R218). -/

namespace Sys2Proof.Machine

/-! ### The accesses that are bus errors (R210) -/

/-- `i` is a digest read, and digests cannot be read (42_host_access.md R167): the one instruction that is a bus error. -/
def RefusedDigestRead (i : Instr) (s : State) : Prop := (∃ k, i = .rdDigest k) ∧ digestReadable s = false

theorem digestReadable_eq_false_iff (s : State) : digestReadable s = false ↔ s.state ≠ .done ∨ s.err = true := by
  simp [digestReadable, imp_iff_not_or]

theorem exec_of_refused {i : Instr} {s : State} (h : RefusedDigestRead i s) : exec i s = .next (busErrorState s) := by
  obtain ⟨⟨k, rfl⟩, hr⟩ := h
  rw [exec_rdDigest, hr]
  rfl

theorem exec_of_not_refused {i : Instr} {s : State} (h : ¬ RefusedDigestRead i s) :
    ∃ t, exec i s = .next t ∧ t.response ≠ .busErr := by
  cases i with
  | start | update | finish | wrCmd | wrData | rdData | rdStatus | rdLenLo | rdLenHi => exact ⟨_, rfl, by simp⟩
  | rdDigest k =>
    have hr : digestReadable s = true := by simpa [RefusedDigestRead] using h
    exact ⟨_, by rw [exec_rdDigest, if_pos hr], by simp⟩

/-- The offsets that R210 lists for a read whatever the state. -/
abbrev UnreadableOffset (off : BitVec 6) : Prop :=
  off.toNat % 4 ≠ 0 ∨ off = 0x00 ∨ off = 0x0C ∨ off = 0x18 ∨ off = 0x1C

/-- They are those where the decoder admits no read. -/
theorem read_rejected_iff : ∀ off : BitVec 6, (decodeAccess (0#1 ++ off) 0).isOk = false ↔ UnreadableOffset off := by
  decide

/-- A whole-word read is listed for its offset, or as a digest read that is refused. -/
theorem busErrorListed_read_iff (s : State) (off : BitVec 6) :
    BusErrorListed s (.read 32 off) ↔ UnreadableOffset off ∨ (0x20 ≤ off.toNat ∧ digestReadable s = false) := by
  simp [BusErrorListed, digestReadable_eq_false_iff, or_assoc]

/-- Every write but one of CMD or of DATA is listed. -/
theorem listed_or_writable : ∀ off : BitVec 6, (off = 0x00 ∨ off = 0x04) ∨
    off.toNat % 4 ≠ 0 ∨ off = 0x08 ∨ off = 0x0C ∨ off = 0x10 ∨ off = 0x14 ∨ off = 0x18 ∨ off = 0x1C ∨
      0x20 ≤ off.toNat := by decide

/-- What does not decode is listed. -/
theorem busErrorListed_of_rejected {r : BusRequest} {e : Reject} (h : decodeRequest r = .error e) (s : State) :
    BusErrorListed s r := by
  cases r with
  | read width off =>
    by_cases hw : width = 32
    · subst hw
      have hd : decodeAccess (0#1 ++ off) 0 = .error e := h
      exact (busErrorListed_read_iff s off).mpr (.inl ((read_rejected_iff off).mp (congrArg Except.isOk hd)))
    · exact .inl hw
  | write width off v =>
    by_cases hw : width = 32
    · subst hw
      obtain (rfl | rfl) | hlisted := listed_or_writable off
      · cases h
      · cases h
      · exact .inr hlisted
    · exact .inl hw

/-- What decodes is listed if it is a digest read that is refused, and only then. -/
theorem busErrorListed_iff_refused {r : BusRequest} {i : Instr} (h : decodeRequest r = .ok i) (s : State) :
    BusErrorListed s r ↔ RefusedDigestRead i s := by
  cases r with
  | read width off =>
    obtain ⟨rfl, hadmitted⟩ := decodeRequest_read_ok h
    have hd : decodeAccess (0#1 ++ off) 0 = .ok i := h
    have hoff : ¬ UnreadableOffset off := by
      rw [← read_rejected_iff, hd]
      nofun
    rw [busErrorListed_read_iff, or_iff_right hoff]
    obtain ⟨rfl, rfl⟩ | ⟨rfl, rfl⟩ | ⟨rfl, rfl⟩ | ⟨rfl, rfl⟩ | ⟨hdigest, rfl⟩ := hadmitted
    · simp [RefusedDigestRead]
    · simp [RefusedDigestRead]
    · simp [RefusedDigestRead]
    · simp [RefusedDigestRead]
    · simp [RefusedDigestRead, hdigest]
  | write width off v =>
    obtain ⟨rfl, ⟨rfl, rfl⟩ | ⟨rfl, rfl⟩⟩ := decodeRequest_write_ok h
    · simp [BusErrorListed, RefusedDigestRead]
    · simp [BusErrorListed, RefusedDigestRead]

/-- Settles O23, by whether the access decodes. -/
theorem busErrorsAreTheListedAccesses : Obligations.BusErrorsAreTheListedAccesses := by
  intro r s
  cases hd : decodeRequest r with
  | error e => exact ⟨fun _ => serveRequest_error hd s, fun h => absurd (busErrorListed_of_rejected hd s) h⟩
  | ok i =>
    rw [busErrorListed_iff_refused hd, serveRequest_ok hd]
    exact ⟨exec_of_refused, exec_of_not_refused⟩

/-! ### After a bus error (R211) -/

/-- An access answered BUSERR has done nothing else but set the mark. -/
theorem eq_busErrorState_of_response {r : BusRequest} {s t : State} (h : serveRequest r s = .next t)
    (hresp : t.response = .busErr) : t = busErrorState s := by
  rcases serveRequest_cases r s with ⟨w, -, hs⟩ | ⟨v, -, hs⟩ | ⟨v, hs⟩ | hs <;> rw [hs] at h <;> cases h
  · cases hresp
  · cases hresp
  · cases hresp
  · rfl

/-- A command does not look at the last answer. -/
theorem exec_command_forgets_response {i : Instr} (hi : executesCommand i = true) (s : State) (r : BusResponse) :
    exec i { s with response := r } = exec i s := by
  cases i with
  | start | update | finish | wrCmd => exact congrArg Host.Outcome.next (completeCmd_forgets_response s _ r)
  | wrData | rdData | rdStatus | rdLenLo | rdLenHi | rdDigest => cases hi

/-- Settles O24: a bus error changes the mark and the answer, and no command looks at the answer. -/
theorem busErrorDoesNotHaltTheEngine : Obligations.BusErrorDoesNotHaltTheEngine := by
  intro r s t h hresp
  rw [eq_busErrorState_of_response h hresp]
  exact ⟨rfl, rfl, fun i hi => exec_command_forgets_response hi { s with faulted := true } .busErr⟩

/-! ### No step stops (R200) -/

theorem exec_completes (i : Instr) (s : State) : ∃ t, exec i s = .next t := by
  cases i with
  | start | update | finish | wrCmd | wrData | rdData | rdStatus | rdLenLo | rdLenHi => exact ⟨_, rfl⟩
  | rdDigest k => exact ⟨_, exec_rdDigest k s⟩

theorem serveRequest_completes (r : BusRequest) (s : State) : ∃ t, serveRequest r s = .next t := by
  cases hd : decodeRequest r with
  | error e => exact ⟨_, serveRequest_error hd s⟩
  | ok i => rw [serveRequest_ok hd]; exact exec_completes i s

theorem step_completes (s : State) : ∃ t, step s = .next t := by
  cases hp : s.pending with
  | nil => exact ⟨s, step_nil hp⟩
  | cons e rest =>
    cases e with
    | access r => rw [step_access hp]; exact serveRequest_completes r _
    | reset => exact ⟨_, step_reset hp⟩

/-- A run of any number of steps answers a next state, which has every property that each step keeps. -/
theorem run_keeps {P : State → Prop} (hstep : ∀ s t, P s → step s = .next t → P t) (k : Nat) {s : State} (hs : P s) :
    ∃ t, Host.Core.run Sys2Proof.core k s = .next t ∧ P t := by
  induction k generalizing s with
  | zero => exact ⟨s, run_zero s, hs⟩
  | succ k ih =>
    obtain ⟨u, hu⟩ := step_completes s
    rw [run_succ hu]
    exact ih (hstep s u hs hu)

/-- Settles O42: every instruction, so every step, so every run. -/
theorem everyInstructionAndStepCompletes : Obligations.EveryInstructionAndStepCompletes := by
  refine ⟨exec_completes, step_completes, fun k s => ?_⟩
  obtain ⟨t, ht, -⟩ := run_keeps (P := fun _ => True) (fun _ _ _ _ => trivial) k (s := s) trivial
  exact ⟨t, ht⟩

/-! ### The mark (R212) -/

theorem completeCmd_keeps_mark (w : Word) {s : State} (h : s.faulted = true) :
    (completeCmd (decodeCmd w) s).faulted = true := by
  rcases completeCmd_cases w s with ⟨-, hc⟩ | ⟨-, c, -, hc⟩ | ⟨-, k, -, hok, hc⟩ <;> rw [hc]
  · exact h
  · rfl
  · obtain ⟨-, -, -, hmark, -⟩ := doCommand_keeps hok
    exact hmark.trans h

theorem step_keeps_mark (s t : State) (h : s.faulted = true) (ht : step s = .next t) : t.faulted = true := by
  rcases step_registers ht with ⟨rest, -, rfl⟩ | ⟨w, rest, -, rfl⟩ | ⟨-, hkept⟩
  · exact h
  · exact completeCmd_keeps_mark w (s := { s with pending := rest }) h
  · exact hkept.marked h

/-- Settles O25: both error entries set the mark, and every step keeps it, so every run does. -/
theorem faultMarkIsSticky : Obligations.FaultMarkIsSticky := by
  refine ⟨fun s t herr h hterr => ?_, fun s r rest t hp h hresp => ?_, fun k s t hs h => ?_⟩
  · obtain ⟨e, rest, c, -, -, rfl⟩ := errorEntryIsPrecise s t herr h hterr
    rfl
  · rw [step_access hp] at h
    rw [eq_busErrorState_of_response h hresp]
    rfl
  · obtain ⟨u, hu, hmark⟩ := run_keeps step_keeps_mark k hs
    cases hu.symm.trans h
    exact hmark

/-! ### Several engines (R218) -/

theorem serveAt_getElem?_other {k j : Nat} (h : j ≠ k) (e : BusEvent) (es : List Engine) :
    (serveAt k e es)[j]? = es[j]? := List.getElem?_modify_ne _ _ h.symm

theorem serveAt_getElem?_self {k : Nat} {e : BusEvent} {es : List Engine} {g : Engine} {t : State}
    (hg : es[k]? = some g) (ht : serveEvent e g.engine = .next t) :
    (serveAt k e es)[k]? = some { g with engine := t } := by
  simp [serveAt, hg, ht, outcomeState]

/-- Settles O58: the engine that holds the address serves the access, and no other entry of the list is written. -/
theorem enginesShareNothing : Obligations.EnginesShareNothing := by
  intro a es es' h
  obtain ⟨⟨k, off⟩, hloc, rfl⟩ := Option.map_eq_some_iff.mp h
  refine ⟨serveAt_length .., k, off, hloc, fun j hj => serveAt_getElem?_other hj _ es, fun g hg => ?_⟩
  obtain ⟨t, ht⟩ := serveRequest_completes (requestAt off a) g.engine
  exact ⟨t, ht, serveAt_getElem?_self hg ht⟩

end Sys2Proof.Machine
end

section
/-! Proofs of the statements of 70_reset_and_hazards.md: what a reset leaves (R230), and the order of DATA writes and UPDATEs
(R236). -/

namespace Sys2Proof.Machine

/-! ### Reset (R230) -/

section
variable (s : State)

/-- STATUS looks at none of the fields that a reset keeps. -/
theorem statusWord_resetEngine : statusWord (resetEngine s) = 0 := (by decide : statusWord State.reset = 0)

theorem lenLo_resetEngine : lenLo (resetEngine s).total = 0 := by rw [resetEngine_total]; decide

theorem lenHi_resetEngine : lenHi (resetEngine s).total = 0 := by rw [resetEngine_total]; decide

end

/-- Settles O38: the step is `resetEngine`, whose registers the reads answer, and which is not in DONE. -/
theorem resetValues : Obligations.ResetValues := by
  intro s rest hp
  refine ⟨_, step_reset hp, rfl, rfl, rfl, rfl, rfl, rfl, rfl, rfl, ?_, ?_, ?_, ?_, ?_⟩
  · rw [exec_rdStatus, statusWord_resetEngine]; rfl
  · rw [exec_rdLenLo, lenLo_resetEngine]; rfl
  · rw [exec_rdLenHi, lenHi_resetEngine]; rfl
  · rw [exec_rdData, resetEngine_data]; rfl
  · exact exec_rdDigest_of_not_done (by simp)

/-! ### DATA and UPDATE (R236) -/

section
variable {s : State} {rest : List BusEvent}

theorem step_dataWrite {v : Word} (hp : s.pending = .access (.write 32 0x04 v) :: rest) :
    step s = .next { s with pending := rest, response := .okWrite, data := v } := step_access hp

/-- A step on a CMD write of a legal word runs its command. -/
theorem step_command {w : Word} {k : Command} (hw : decodeCmd w = .ok k)
    (hp : s.pending = .access (.write 32 0x00 w) :: rest) : step s = exec k.instr { s with pending := rest } :=
  (step_cmdWrite hp).trans (exec_wrCmd_of_ok hw _)

/-- Two steps answer what the second one does. -/
theorem run_two {t : State} (h : step s = .next t) : Host.Core.run Sys2Proof.core 2 s = step t := by
  obtain ⟨u, hu⟩ := step_completes t
  rw [run_succ h, run_succ hu, run_zero]
  exact hu.symm

end

/-- A command does not look at the queue. -/
theorem exec_command_withPending {i : Instr} (hi : executesCommand i = true) {s t : State} (h : exec i s = .next t)
    (p : List BusEvent) : exec i { s with pending := p } = .next { t with pending := p } := by
  cases i with
  | start | update | finish | wrCmd => cases h; exact congrArg Host.Outcome.next (completeCmd_edges s _ p s.response)
  | wrData | rdData | rdStatus | rdLenLo | rdLenHi | rdDigest => cases hi

/-- A command keeps the queue and answers OK. -/
theorem exec_command_edges {i : Instr} (hi : executesCommand i = true) {s t : State} (h : exec i s = .next t) :
    t.pending = s.pending ∧ t.response = .okWrite := by
  cases i with
  | start | update | finish | wrCmd => cases h; exact ⟨completeCmd_pending s _, completeCmd_response s _⟩
  | wrData | rdData | rdStatus | rdLenLo | rdLenHi | rdDigest => cases hi

/-- Settles O37: a step takes one write off the queue, so the UPDATE runs on the DATA of the writes before it; it looks neither
at the answer to them nor at what is queued behind it. -/
theorem updateSeesEarlierDataWrites : Obligations.UpdateSeesEarlierDataWrites := by
  intro v w n s rest hw
  refine ⟨fun hp => ?_, fun hp t ht => ?_⟩
  · refine (run_two (step_dataWrite hp)).trans ?_
    calc step { s with pending := .access (.write 32 0x00 w) :: rest, response := .okWrite, data := v }
      _ = exec (.update n) { s with pending := rest, response := .okWrite, data := v } := step_command hw rfl
      _ = exec (.update n) { s with data := v, pending := rest } :=
          exec_command_forgets_response rfl { s with data := v, pending := rest } .okWrite
  · obtain ⟨hpending, hresponse⟩ : t.pending = rest ∧ t.response = .okWrite := exec_command_edges rfl ht
    refine (run_two ((step_command hw hp).trans (exec_command_withPending rfl ht _))).trans ?_
    calc step { t with pending := .access (.write 32 0x04 v) :: rest }
      _ = .next { t with pending := rest, response := .okWrite, data := v } := step_dataWrite rfl
      _ = .next { t with data := v } := by rw [← hpending, ← hresponse]

end Sys2Proof.Machine
end
